-- ==== Sys2Proof/Word.lean ====
section
/-! DEFINITION. The data types of the transcoder: bytes, codes, payloads, samples, fields, units, and the bit
patterns of the opcode table's formats (spec/30_encoding.md R65 to R71). -/

namespace Sys2Proof

/-- A byte, bit 7 most significant (spec/00_scope.md R12). -/
abbrev Byte := BitVec 8

/-- A sentinel code (spec/30_encoding.md R71). -/
abbrev Code := BitVec 2

/-- A payload, byte 1 of the sample above byte 2 (spec/20_memory.md R42). -/
abbrev Payload := BitVec 16

/-- A sample: sentinel byte, payload high, payload low, at ascending offsets (spec/30_encoding.md R67). -/
structure Sample where
  byte0 : Byte
  byte1 : Byte
  byte2 : Byte
deriving DecidableEq, Repr

/-- A field of the compressed unit: a code above a payload (spec/30_encoding.md R69). -/
structure UnitField where
  code : Code
  payload : Payload
deriving DecidableEq, Repr

/-- An expanded unit, byte 0 from the lowest offset (spec/30_encoding.md R68). -/
abbrev ExpandedUnit := Vector Byte 12

/-- A compressed unit, byte 0 from the lowest offset (spec/30_encoding.md R70). -/
abbrev CompressedUnit := Vector Byte 9

/-- The two commands (spec/30_encoding.md R66); `OPL` holds one of them. -/
inductive Command where
  | cbuf
  | xbuf
deriving DecidableEq, Repr, Inhabited

/-- A bit pattern of one of the opcode table's data-layout formats (spec/30_encoding.md R77). -/
inductive Datum where
  /-- DATA72, the 72-bit number `W` of R70. -/
  | data72 (w : BitVec 72)
  /-- DATA96, byte 0 of the unit most significant (R68). -/
  | data96 (w : BitVec 96)
  /-- DATA18 (R69). -/
  | data18 (w : BitVec 18)
  /-- DATA8, a sample's byte 0 (R71). -/
  | data8 (b : Byte)
deriving DecidableEq, Repr

/-- A bit pattern of any format of the opcode table. -/
inductive Encoded where
  /-- CMD1, the input `op` (R65). -/
  | cmd1 (op : BitVec 1)
  | data (d : Datum)
deriving DecidableEq, Repr

/-- Why a table word is no pattern of any row. -/
inductive DecodeError where
  /-- No format of the table has this many bits. -/
  | unknownWidth (nbits : Nat)
  /-- The word has bits above its format's width. -/
  | wordTooWide (nbits w : Nat)
deriving DecidableEq, Repr

end Sys2Proof
end

