-- ==== Sys2Proof/Config.lean ====
section
/-! DEFINITION. The configuration, fixed when the hardware is elaborated, and the free values: constants with no
body, of which no proof can see a value. -/

namespace Sys2Proof

/-- The capacity `C` with the proof that 12 divides it (spec/00_scope.md R7, spec/60_exceptions.md R141): an invalid
configuration cannot be written down. -/
structure Config where
  capacity : Nat
  valid : 12 ∣ capacity
deriving DecidableEq, Repr

/-- Why a capacity is no configuration (spec/60_exceptions.md R141). -/
inductive ConfigError where
  /-- `ConfigInvalid`: 12 does not divide the capacity. -/
  | configInvalid (capacity : Nat)
deriving DecidableEq, Repr

/-- How many units beyond the first this machine's buffer has: the source gives no value (spec/91_not_in_source.md
N1).  DESIGN CHOICE, safe, log 1. -/
opaque Config.furtherUnits : Nat

/-- The configuration of the machine at `State.reset`: `C = 12·N` with `N ≥ 1` (spec/00_scope.md R7) and nothing more. -/
def Config.machine : Config := ⟨12 * (Config.furtherUnits + 1), Nat.dvd_mul_right 12 _⟩

/-- The byte that draw `draw` leaves at `offset` where the spec says "any value": the trailing bytes after CBUF
(spec/42_buffer_codec.md R120), BUF after a reset in BUSY (spec/70_reset_and_hazards.md R161), EU and CU after a
reset (spec/10_state.md R35).  Logs 4, 5. -/
opaque Config.freeByte (draw offset : Nat) : Byte

/-- The value of OPL where the spec says "unspecified (any value)" (spec/10_state.md R23, R35).  Logs 5, 20. -/
opaque Config.freeCommand (draw : Nat) : Command

/-- The value of K where the spec says "unspecified (any value)" (spec/10_state.md R24, R35).  Logs 5, 20. -/
opaque Config.freeIndex (draw : Nat) : Nat

end Sys2Proof
end

