-- ==== Sys2Proof/Machine/Capacity.lean ====
section
/-! DEFINITION. The check of a capacity and the quantities derived from it (spec/00_scope.md R7, R8,
spec/60_exceptions.md R141). -/

namespace Sys2Proof

/-- The static check: a capacity that 12 does not divide is refused by name, never rounded down (R141). -/
def Config.ofCapacity (c : Nat) : Except ConfigError Config :=
  if h : 12 ∣ c then .ok ⟨c, h⟩ else .error (.configInvalid c)

/-- `N = C / 12` (R8). -/
def Config.units (c : Config) : Nat := c.capacity / 12

/-- `LC = 9·N` (R8). -/
def Config.compressedLength (c : Config) : Nat := 9 * c.units

/-- `N = 0`, the model-only empty buffer (R7), said of `C`: 12 divides it, so `N = 0` exactly when `C = 0`. -/
def Config.isEmpty (c : Config) : Bool := c.capacity == 0

/-- A hardware machine has `C ≥ 12` (R141); a model may admit `C = 0` (spec/92_eei_decisions.md D21). -/
def Config.isHardware (c : Config) : Bool := 12 ≤ c.capacity

/-- `AW = max(1, ceil(log2 C))` (R8). -/
def Config.addressWidth (c : Config) : Nat := max 1 (Nat.clog 2 c.capacity)

/-- `LW = ceil(log2(C + 1))` (R8). -/
def Config.lengthWidth (c : Config) : Nat := Nat.clog 2 (c.capacity + 1)

end Sys2Proof
end

