-- ==== Sys2Proof/Syntax.lean ====
section
/-! DEFINITION. The rows of spec/opcode_table.json: two commands and eight data-layout rows. -/

namespace Sys2Proof

/-- One constructor per row of the opcode table.  The last eight are data-layout rows, "labels of this spec, not
commands" (spec/30_encoding.md R77): the datapath functions the two commands are built from. -/
inductive Instr where
  /-- CBUF, `compressBuffer` (spec/42_buffer_codec.md R110). -/
  | cbuf
  /-- XBUF, `expandBuffer` (R111). -/
  | xbuf
  /-- COMPRESSED_UNIT: the four fields of a compressed unit, field 0 first (spec/30_encoding.md R70). -/
  | compressedUnit (f0 f1 f2 f3 : UnitField)
  /-- EXPANDED_UNIT: the four samples of an expanded unit, in storage order (R68). -/
  | expandedUnit (s0 s1 s2 s3 : Sample)
  /-- FIELD: one field (R69). -/
  | field (f : UnitField)
  /-- SENT_00: the sentinel byte 0x00 (R71). -/
  | sent00
  /-- SENT_7F: the sentinel byte 0x7F. -/
  | sent7F
  /-- SENT_80: the sentinel byte 0x80. -/
  | sent80
  /-- SENT_FF: the sentinel byte 0xFF. -/
  | sentFF
  /-- SENT_OTHER: any other byte, the default row. -/
  | sentOther (b : Byte)
deriving DecidableEq, Repr

end Sys2Proof
end

