-- ==== Sys2Proof/Machine/State.lean ====
section
/-! DEFINITION. What the machine holds (spec/10_state.md R20 and the model's own fields), why it stops, and the state
after reset. -/

namespace Sys2Proof.Machine

/-- The buffer as (offset, byte) pairs in one canonical form: offsets strictly rising, no entry equal to
`blankByte`. -/
abbrev Memory := List Host.Cell

/-- What a byte of BUF that nothing has written reads as.  The spec gives no contents (spec/10_state.md R35):
DESIGN CHOICE, unsafe, log 3. -/
def blankByte : Byte := 0x00

/-- `PHASE` (spec/10_state.md R22). -/
inductive Phase where
  | idle
  | busy
deriving DecidableEq, Repr

/-- What the host does in one step (spec/70_reset_and_hazards.md R178). -/
inductive HostMove where
  /-- The levels of the input ports `rst`, `start` and `op` (spec/92_eei_decisions.md D4); with the first two low
  nothing is asserted. -/
  | drive (rst start : Bool) (op : BitVec 1)
  /-- A host read of `BUF[a]`. -/
  | read (a : Nat)
  /-- A host write `BUF[a] <- d`. -/
  | write (a : Nat) (d : Byte)
deriving DecidableEq, Repr

/-- What the SentinelCodec or a lane puts out for a datum of `bench` (the model's, log 10). -/
inductive LaneResult where
  /-- `enc2` of a byte, and `dec2` of that code (spec/40_sentinel_codec.md R80, R81). -/
  | sentinel (code : Code) (decoded : Byte)
  /-- `laneUnpack` of a field (spec/41_unit_transcoder.md R100). -/
  | sample (s : Sample)
deriving DecidableEq, Repr

/-- The machine's state.  The first eight fields are the spec's (spec/10_state.md R20); the last five are the model's. -/
structure State where
  /-- `PHASE` (R22). -/
  phase : Phase
  /-- `OPL`, the command latched at acceptance (R23). -/
  opl : Command
  /-- `K`, the unit index (R24); a Nat, as spec/00_scope.md R8 allows (log 13). -/
  k : Nat
  /-- `EU`, the expanded-unit staging register (R25). -/
  eu : ExpandedUnit
  /-- `CU`, the compressed-unit staging register (R26). -/
  cu : CompressedUnit
  /-- `LEN` (R27); a Nat (log 13). -/
  len : Nat
  /-- `DONE` (R28). -/
  done : Bool
  /-- `BUF` (R21). -/
  buf : Memory
  /-- The configuration, which no step changes (R32; log 1). -/
  cfg : Config
  /-- What the host does at the coming steps, one entry a step; when the list is used up it asserts nothing (log 7). -/
  inputs : List HostMove
  /-- A datum on the datapath's input, put there from outside the machine only (log 9). -/
  bench : Option Datum
  /-- The last result for a datum of `bench` that no register of the spec holds (log 10). -/
  lane : Option LaneResult
  /-- How many free values have been drawn (log 6). -/
  draws : Nat
deriving DecidableEq, Repr

/-- Why the machine stops with a fault.  No rule of the spec raises a run-time fault (spec/60_exceptions.md R140). -/
inductive Fault where
  /-- Raised by `hostAccess`: the host addressed a byte outside `[0, C)`, which does not exist (spec/20_memory.md
  R40).  Safe: the machine stops. -/
  | outOfBuffer (a : Nat)
deriving DecidableEq, Repr

/-- Why the machine refuses a step. -/
inductive Refusal where
  /-- Raised by an arm of `exec` that has no meaning yet.  Safe.  No arm raises it. -/
  | notModelled (mnemonic : String)
  /-- Raised by `hostAccess`: the host touched BUF while PHASE = BUSY; "The host has no move on BUF"
  (spec/93_implementation_defined.md U4).  Safe: nothing is claimed of such a run. -/
  | hostAccessWhileBusy (a : Nat)
deriving DecidableEq, Repr

/-- The machine right after reset (spec/10_state.md R35): IDLE, DONE = 0, LEN = 0.  OPL, K, EU and CU are unspecified
there; the values here are the model's (DESIGN CHOICE, unsafe, log 2), and so are the last five fields (logs 1, 6, 7,
9, 10). -/
def State.reset : State where
  phase := .idle
  opl := .cbuf
  k := 0
  eu := #v[0, 0, 0, 0, 0, 0, 0, 0, 0, 0, 0, 0]
  cu := #v[0, 0, 0, 0, 0, 0, 0, 0, 0]
  len := 0
  done := false
  buf := []
  cfg := Config.machine
  inputs := []
  bench := none
  lane := none
  draws := 0

end Sys2Proof.Machine
end

