-- ==== Sys2Proof/Machine/Memory.lean ====
section
/-! DEFINITION. The buffer as plain storage: byte access (spec/20_memory.md R44, R47), unit-wide access
(spec/00_scope.md R14) and the two views (R41).  No access has a failure case (R56; log 14). -/

namespace Sys2Proof.Machine

/-- The canonical form: offsets strictly rising, each above `low` or equal to it, and no entry `blankByte`. -/
def Memory.wfFrom (low : Nat) : Memory → Bool
  | [] => true
  | (a, d) :: rest => decide (low ≤ a) && d != blankByte && Memory.wfFrom (a + 1) rest

/-- The canonical form of a buffer. -/
def Memory.wf (m : Memory) : Bool := m.wfFrom 0

/-- Every listed offset lies in `[0, c)`. -/
def Memory.below (c : Nat) (m : Memory) : Bool := m.all fun cell => decide (cell.1 < c)

/-- `BUF[a]`. -/
def Memory.read : Memory → Nat → Byte
  | [], _ => blankByte
  | (a, d) :: rest, x => if x = a then d else Memory.read rest x

/-- An entry for `a` in front of `rest`, none where the byte is what an unlisted offset reads as. -/
def Memory.cons (a : Nat) (d : Byte) (rest : Memory) : Memory :=
  if d = blankByte then rest else (a, d) :: rest

/-- `BUF[x] <- v`, keeping the canonical form. -/
def Memory.write : Memory → Nat → Byte → Memory
  | [], x, v => Memory.cons x v []
  | (a, d) :: rest, x, v =>
    if a < x then (a, d) :: Memory.write rest x v
    else if a = x then Memory.cons x v rest
    else Memory.cons x v ((a, d) :: rest)

/-- `MemRead(a, n)`: the `n` bytes from offset `a` on, in ascending offset order (spec/00_scope.md R14). -/
def Memory.memRead (m : Memory) (a n : Nat) : Vector Byte n := Vector.ofFn fun j => m.read (a + j.val)

/-- `MemWrite(a, n, v)`: the bytes of `v` from offset `a` on, in ascending offset order (R14, spec/42_buffer_codec.md
R127). -/
def Memory.memWrite : Memory → Nat → List Byte → Memory
  | m, _, [] => m
  | m, a, v :: vs => Memory.memWrite (m.write a v) (a + 1) vs

/-- The accessor of the expanded view: unit `k` at `[12k, 12k+12)` (spec/20_memory.md R41). -/
def Memory.unit_at_expanded_offset (m : Memory) (k : Nat) : ExpandedUnit := m.memRead (12 * k) 12

/-- The accessor of the compressed view: unit `k` at `[9k, 9k+9)` (R41). -/
def Memory.unit_at_compressed_offset (m : Memory) (k : Nat) : CompressedUnit := m.memRead (9 * k) 9

/-- The free bytes of draw `draw` at the offsets `[a, a + n)`. -/
def freeBytes (draw a n : Nat) : List Byte := (List.range n).map fun i => Config.freeByte draw (a + i)

/-- "any value" for each byte at `[a, a + n)`: the free bytes of one draw (logs 4, 5). -/
def Memory.forget (m : Memory) (draw a n : Nat) : Memory := m.memWrite a (freeBytes draw a n)

end Sys2Proof.Machine
end

