-- ==== Sys2Proof/WellFormed.lean ====
section
/-! DEFINITION. Which terms of `Instr` are an instance of their row. -/

namespace Sys2Proof

/-- The sentinel set (spec/00_scope.md R9). -/
def sentinelSet : List Byte := [0x00, 0x7F, 0x80, 0xFF]

/-- A sample's byte 0 is in the sentinel set. -/
def isSentinel (b : Byte) : Bool := sentinelSet.contains b

/-- SENT_OTHER "applies when no earlier DATA8 row matches" (spec/30_encoding.md R77), so its byte is outside the
sentinel set; every other row is total in its operands (R73, R74). -/
def Instr.wellFormed : Instr → Bool
  | .cbuf => true
  | .xbuf => true
  | .compressedUnit _ _ _ _ => true
  | .expandedUnit _ _ _ _ => true
  | .field _ => true
  | .sent00 => true
  | .sent7F => true
  | .sent80 => true
  | .sentFF => true
  | .sentOther b => !isSentinel b

end Sys2Proof
end

