-- ==== Sys2Proof/Decode.lean ====
section
/-! DEFINITION. The decoder of every format of spec/opcode_table.json, and after it the encoder. -/

namespace Sys2Proof

/-- CMD1: bit 0 is `OP`, 0 = CBUF and 1 = XBUF, with no other value (spec/30_encoding.md R65, R73). -/
def decodeOp (op : BitVec 1) : Instr :=
  if op = 0 then .cbuf else .xbuf

/-- DATA18: the code in bits 17:16, the payload in bits 15:0 (R69). -/
def UnitField.ofBits (w : BitVec 18) : UnitField :=
  ⟨w.extractLsb' 16 2, w.extractLsb' 0 16⟩

/-- A sample's 24 bits, byte 0 most significant (spec/20_memory.md R42). -/
def Sample.ofBits (w : BitVec 24) : Sample :=
  ⟨w.extractLsb' 16 8, w.extractLsb' 8 8, w.extractLsb' 0 8⟩

/-- DATA72: field `i` is `W[71 − 18i : 54 − 18i]` (spec/20_memory.md R43, spec/30_encoding.md R70). -/
def decodeCompressed (w : BitVec 72) : Instr :=
  .compressedUnit (UnitField.ofBits (w.extractLsb' 54 18)) (UnitField.ofBits (w.extractLsb' 36 18))
    (UnitField.ofBits (w.extractLsb' 18 18)) (UnitField.ofBits (w.extractLsb' 0 18))

/-- DATA96: byte `j` of the unit is characters `8j` to `8j + 7` of the row's pattern, so sample 0 is the topmost 24
bits (R68). -/
def decodeExpanded (w : BitVec 96) : Instr :=
  .expandedUnit (Sample.ofBits (w.extractLsb' 72 24)) (Sample.ofBits (w.extractLsb' 48 24))
    (Sample.ofBits (w.extractLsb' 24 24)) (Sample.ofBits (w.extractLsb' 0 24))

/-- DATA8: four exact matches, then the default row (R71, R77). -/
def decodeSentinel (b : Byte) : Instr :=
  if b = 0x00 then .sent00
  else if b = 0x7F then .sent7F
  else if b = 0x80 then .sent80
  else if b = 0xFF then .sentFF
  else .sentOther b

/-- The decoder of the data-layout rows: total, since every pattern of these widths is valid (R74). -/
def decodeDatum : Datum → Instr
  | .data72 w => decodeCompressed w
  | .data96 w => decodeExpanded w
  | .data18 w => .field (UnitField.ofBits w)
  | .data8 b => decodeSentinel b

/-- The decoder of every row (R73, R74: no pattern is refused). -/
def decode : Encoded → Instr
  | .cmd1 op => decodeOp op
  | .data d => decodeDatum d

/-- The pattern of a table word `w` of `nbits` bits.  A command's one bit may stand in a whole byte whose other bits
are 0; so the bytes 0 and 1 are read as commands, for a command decoder needs only the first two rows
(spec/30_encoding.md R77); DESIGN CHOICE, safe, log 12. -/
def patternOf (nbits w : Nat) : Except DecodeError Encoded :=
  match nbits with
  | 1 => if w < 2 then .ok (.cmd1 (BitVec.ofNat 1 w)) else .error (.wordTooWide nbits w)
  | 8 =>
    if w < 2 then .ok (.cmd1 (BitVec.ofNat 1 w))
    else if w < 2 ^ 8 then .ok (.data (.data8 (BitVec.ofNat 8 w)))
    else .error (.wordTooWide nbits w)
  | 18 => if w < 2 ^ 18 then .ok (.data (.data18 (BitVec.ofNat 18 w))) else .error (.wordTooWide nbits w)
  | 24 => if w < 2 ^ 18 then .ok (.data (.data18 (BitVec.ofNat 18 w))) else .error (.wordTooWide nbits w)
  | 72 => if w < 2 ^ 72 then .ok (.data (.data72 (BitVec.ofNat 72 w))) else .error (.wordTooWide nbits w)
  | 96 => if w < 2 ^ 96 then .ok (.data (.data96 (BitVec.ofNat 96 w))) else .error (.wordTooWide nbits w)
  | _ => .error (.unknownWidth nbits)

/-- The row a table word is an instance of, the table's bit 0 least significant. -/
def decodeTableWord (nbits w : Nat) : Option Instr :=
  match patternOf nbits w with
  | .ok e => some (decode e)
  | .error _ => none

/-- `f_i = c_i ++ p_i` (spec/30_encoding.md R69). -/
def UnitField.bits (f : UnitField) : BitVec 18 := f.code ++ f.payload

/-- A sample's 24 bits, byte 0 most significant (spec/20_memory.md R42). -/
def Sample.bits (s : Sample) : BitVec 24 := s.byte0 ++ s.byte1 ++ s.byte2

/-- The pattern of an instance of a row, from the same tables (spec/30_encoding.md R65, R68 to R71). -/
def encode : Instr → Encoded
  | .cbuf => .cmd1 0
  | .xbuf => .cmd1 1
  | .compressedUnit f0 f1 f2 f3 => .data (.data72 (f0.bits ++ f1.bits ++ f2.bits ++ f3.bits))
  | .expandedUnit s0 s1 s2 s3 => .data (.data96 (s0.bits ++ s1.bits ++ s2.bits ++ s3.bits))
  | .field f => .data (.data18 f.bits)
  | .sent00 => .data (.data8 0x00)
  | .sent7F => .data (.data8 0x7F)
  | .sent80 => .data (.data8 0x80)
  | .sentFF => .data (.data8 0xFF)
  | .sentOther b => .data (.data8 b)

/-- How many bits a pattern has (the table's `width`). -/
def Encoded.width : Encoded → Nat
  | .cmd1 _ => 1
  | .data (.data72 _) => 72
  | .data (.data96 _) => 96
  | .data (.data18 _) => 18
  | .data (.data8 _) => 8

/-- A pattern as a number, its bit 0 least significant. -/
def Encoded.bits : Encoded → Nat
  | .cmd1 op => op.toNat
  | .data (.data72 w) => w.toNat
  | .data (.data96 w) => w.toNat
  | .data (.data18 w) => w.toNat
  | .data (.data8 b) => b.toNat

end Sys2Proof
end

