-- ==== Sys2Proof/Machine/Operands.lean ====
section
/-! DEFINITION. The datapath: SentinelCodec (spec/40_sentinel_codec.md), operand assembly (spec/30_encoding.md R72) and
UnitTranscoder (spec/41_unit_transcoder.md).  All are functions of their arguments alone (R84, R101). -/

namespace Sys2Proof.Machine

/-- `SentinelCodec.encode` (R80): all 8 bits are compared; anything but the first three values gives 0b11. -/
def enc2 (b : Byte) : Code :=
  if b = 0x00 then 0b00
  else if b = 0x7F then 0b01
  else if b = 0x80 then 0b10
  else 0b11

/-- `SentinelCodec.decode` (R81). -/
def dec2 (c : Code) : Byte :=
  if c = 0b00 then 0x00
  else if c = 0b01 then 0x7F
  else if c = 0b10 then 0x80
  else 0xFF

/-- One lane of `packUnit` (R100): the code of byte 0 above the payload. -/
def lanePack (s : Sample) : BitVec 18 := enc2 s.byte0 ++ s.byte1 ++ s.byte2

/-- One lane of `unpackUnit` (R100): `dec2` of bits 17:16, then bits 15:8, then bits 7:0. -/
def laneUnpack (f : BitVec 18) : Sample :=
  ⟨dec2 (f.extractLsb' 16 2), f.extractLsb' 8 8, f.extractLsb' 0 8⟩

/-- Sample `i` of an expanded unit is its bytes `3i, 3i+1, 3i+2` (spec/30_encoding.md R68). -/
def sampleAt (u : ExpandedUnit) (i : Fin 4) : Sample :=
  ⟨u[3 * i.val]'(by omega), u[3 * i.val + 1]'(by omega), u[3 * i.val + 2]'(by omega)⟩

/-- The expanded unit of four samples in storage order (R68). -/
def unitOfSamples (s0 s1 s2 s3 : Sample) : ExpandedUnit :=
  #v[s0.byte0, s0.byte1, s0.byte2, s1.byte0, s1.byte1, s1.byte2,
     s2.byte0, s2.byte1, s2.byte2, s3.byte0, s3.byte1, s3.byte2]

/-- The 72-bit number `W = o[0] ++ o[1] ++ … ++ o[8]` of a compressed unit (spec/30_encoding.md R70). -/
def compressedWord (o : CompressedUnit) : BitVec 72 :=
  o[0] ++ o[1] ++ o[2] ++ o[3] ++ o[4] ++ o[5] ++ o[6] ++ o[7] ++ o[8]

/-- The compressed unit of a 72-bit number: `o[j] = W[71 − 8j : 64 − 8j]` (R70). -/
def compressedBytes (w : BitVec 72) : CompressedUnit :=
  Vector.ofFn fun j => w.extractLsb' (64 - 8 * j.val) 8

/-- `f_i = W[71 − 18i : 54 − 18i]` (R70, R92). -/
def fieldAt (w : BitVec 72) (i : Fin 4) : BitVec 18 := w.extractLsb' (54 - 18 * i.val) 18

/-- The compressed unit of four fields, `W = f_0 ++ f_1 ++ f_2 ++ f_3` (R70). -/
def unitOfFields (f0 f1 f2 f3 : BitVec 18) : CompressedUnit := compressedBytes (f0 ++ f1 ++ f2 ++ f3)

/-- `compressUnit` (R90). -/
def packUnit (u : ExpandedUnit) : CompressedUnit :=
  unitOfFields (lanePack (sampleAt u 0)) (lanePack (sampleAt u 1)) (lanePack (sampleAt u 2)) (lanePack (sampleAt u 3))

/-- `expandUnit` (R92). -/
def unpackUnit (o : CompressedUnit) : ExpandedUnit :=
  let w := compressedWord o
  unitOfSamples (laneUnpack (fieldAt w 0)) (laneUnpack (fieldAt w 1)) (laneUnpack (fieldAt w 2)) (laneUnpack (fieldAt w 3))

/-- The source's name of `enc2` (spec/30_encoding.md R76). -/
abbrev SentinelCodec.encode (b : Byte) : Code := enc2 b

/-- The source's name of `dec2` (R76). -/
abbrev SentinelCodec.decode (c : Code) : Byte := dec2 c

/-- The source's name of `packUnit` (R76). -/
abbrev compressUnit (expanded : ExpandedUnit) : CompressedUnit := packUnit expanded

/-- The source's name of `unpackUnit` (R76). -/
abbrev expandUnit (compressed : CompressedUnit) : ExpandedUnit := unpackUnit compressed

end Sys2Proof.Machine
end

