-- ==== Sys2Proof/Machine/BufferCodec.lean ====
section
/-! DEFINITION. What a unit step does to the buffer (spec/42_buffer_codec.md R112, R113), the two commands as whole
transformations of the buffer (R110, R111), and the same through separate buffers (R118, R119). -/

namespace Sys2Proof.Machine

/-- CBUF on unit `k`: all twelve reads, then all nine writes (R112). -/
def Memory.compressAt (m : Memory) (k : Nat) : Memory :=
  m.memWrite (9 * k) (packUnit (m.unit_at_expanded_offset k)).toList

/-- XBUF on unit `k`: all nine reads, then all twelve writes (R113). -/
def Memory.expandAt (m : Memory) (k : Nat) : Memory :=
  m.memWrite (12 * k) (unpackUnit (m.unit_at_compressed_offset k)).toList

/-- The unit indices in CBUF's order, ascending (R114). -/
def cbufOrder (n : Nat) : List Nat := List.range n

/-- The unit indices in XBUF's order, descending, "mandatory" (R114). -/
def xbufOrder (n : Nat) : List Nat := (List.range n).reverse

/-- `compressBuffer(buffer) -> length`, the loop of R110 in place, its writes only (the bytes `[9N, C)` are then
unspecified, R120). -/
def compressBuffer (c : Config) (m : Memory) : Memory × Nat :=
  ((cbufOrder c.units).foldl Memory.compressAt m, c.compressedLength)

/-- `expandBuffer(buffer) -> length`, the loop of R111 in place. -/
def expandBuffer (c : Config) (m : Memory) : Memory × Nat :=
  ((xbufOrder c.units).foldl Memory.expandAt m, c.capacity)

/-- What "doing so via separate buffers" puts at offset `a` under CBUF (R118): byte `a mod 9` of the packed unit
`a / 9` of the untouched source. -/
def compressedByteOf (source : Memory) (a : Nat) : Byte :=
  (packUnit (source.unit_at_expanded_offset (a / 9)))[a % 9]'(Nat.mod_lt _ (by decide))

/-- The same under XBUF (R119): byte `a mod 12` of the unpacked unit `a / 12` of the untouched source. -/
def expandedByteOf (source : Memory) (a : Nat) : Byte :=
  (unpackUnit (source.unit_at_compressed_offset (a / 12)))[a % 12]'(Nat.mod_lt _ (by decide))

/-- The capacity and the byte of the round trip `CBUF ; XBUF` at offset `a` (R122): `dec2` of `enc2` for a sentinel
byte, the byte itself for a payload byte. -/
def canonicalByteOf (source : Memory) (a : Nat) : Byte :=
  if a % 3 = 0 then dec2 (enc2 (source.read a)) else source.read a

end Sys2Proof.Machine
end

