-- ==== Sys2Proof/Machine/Flags.lean ====
section
/-! DEFINITION. The two flags and the result register (spec/10_state.md R22, R27, R28): what sets and clears them and
what the host sees.  There are no condition codes (R28). -/

namespace Sys2Proof.Machine

/-- The flags of acceptance (spec/42_buffer_codec.md R124): OPL latched, DONE cleared, BUSY; LEN untouched. -/
def State.markAccepted (s : State) (c : Command) : State :=
  { s with opl := c, done := false, phase := .busy }

/-- The flags of completion (R125): LEN written, DONE set, IDLE. -/
def State.markCompleted (s : State) (l : Nat) : State :=
  { s with len := l, done := true, phase := .idle }

/-- The flags of reset (spec/10_state.md R35): IDLE, DONE = 0, LEN = 0. -/
def State.markReset (s : State) : State :=
  { s with len := 0, done := false, phase := .idle }

/-- The length a command returns: 9N after CBUF, C after XBUF (spec/42_buffer_codec.md R121). -/
def resultLength (c : Config) : Command → Nat
  | .cbuf => c.compressedLength
  | .xbuf => c.capacity

/-- A run has ended (spec/70_reset_and_hazards.md R177). -/
def State.endOfRun (s : State) : Bool := s.phase = .idle && s.done

/-- The output `busy` (R22). -/
def State.busyOut (s : State) : Bool := s.phase = .busy

/-- The output `done` (R28). -/
def State.doneOut (s : State) : Bool := s.done

/-- The output `len` (R27). -/
def State.lenOut (s : State) : Nat := s.len

end Sys2Proof.Machine
end

