-- ==== Sys2Proof/Machine/Ops.lean ====
section
/-! DEFINITION. The operations over the registers that the meanings share: acceptance, the two unit steps, completion
(spec/42_buffer_codec.md), the requests on the memory port (spec/20_memory.md R44), reset (spec/70_reset_and_hazards.md)
and the host's accesses to BUF.  The transcoder takes no exception and returns from none (spec/60_exceptions.md R140, R146,
R147): reset is the only event that redirects it. -/

namespace Sys2Proof.Machine

/-- `K <- k` (spec/00_scope.md R14). -/
def State.setIndex (s : State) (k : Nat) : State := { s with k := k }

/-- `EU <- u` and `CU <- o`. -/
def State.setStaging (s : State) (u : ExpandedUnit) (o : CompressedUnit) : State := { s with eu := u, cu := o }

/-- A new content of BUF. -/
def State.setBuf (s : State) (m : Memory) : State := { s with buf := m }

/-- The output of the SentinelCodec or of a lane (log 10). -/
def State.setLane (s : State) (r : LaneResult) : State := { s with lane := some r }

/-- "any value" for the bytes of BUF at `[a, a + n)`, of the coming draw. -/
def State.forgetBuf (s : State) (a n : Nat) : State := { s with buf := s.buf.forget s.draws a n }

/-- "unspecified" for OPL and K, whose values mean nothing while IDLE (spec/10_state.md R23, R24), of the coming draw. -/
def State.forgetSequencer (s : State) : State :=
  { s with opl := Config.freeCommand s.draws, k := Config.freeIndex s.draws }

/-- "unspecified" for EU and CU (R35), of the two draws after the coming one. -/
def State.forgetStaging (s : State) : State :=
  s.setStaging (Vector.ofFn fun j => Config.freeByte (s.draws + 1) j.val)
    (Vector.ofFn fun j => Config.freeByte (s.draws + 2) j.val)

/-- The free-value counter moves past the draws used (log 6). -/
def State.advanceDraws (s : State) (n : Nat) : State := { s with draws := s.draws + n }

/-- The value of K at acceptance: 0 for CBUF, N − 1 for XBUF (spec/42_buffer_codec.md R114, R124). -/
def firstIndex (c : Config) : Command → Nat
  | .cbuf => 0
  | .xbuf => c.units - 1

/-- Completion of CBUF (R125): LEN <- 9N, DONE <- 1, IDLE; the bytes `[9N, C)` are from now on any value (R120). -/
def State.completeCbuf (s : State) : State :=
  ((s.forgetBuf s.cfg.compressedLength (s.cfg.capacity - s.cfg.compressedLength)).markCompleted
    (resultLength s.cfg .cbuf)).forgetSequencer.advanceDraws 1

/-- Completion of XBUF (R125): LEN <- C, DONE <- 1, IDLE. -/
def State.completeXbuf (s : State) : State :=
  (s.markCompleted (resultLength s.cfg .xbuf)).forgetSequencer.advanceDraws 1

/-- Acceptance of CBUF (R124); where N = 0 completion follows at once. -/
def State.acceptCbuf (s : State) : State :=
  let t := (s.markAccepted .cbuf).setIndex (firstIndex s.cfg .cbuf)
  if s.cfg.isEmpty then t.completeCbuf else t

/-- Acceptance of XBUF (R124); where N = 0 completion follows at once. -/
def State.acceptXbuf (s : State) : State :=
  let t := (s.markAccepted .xbuf).setIndex (firstIndex s.cfg .xbuf)
  if s.cfg.isEmpty then t.completeXbuf else t

/-- The data movement of a CBUF unit step (R112): EU, CU and BUF. -/
def State.compressUnitAtK (s : State) : State :=
  let u := s.buf.unit_at_expanded_offset s.k
  (s.setStaging u (packUnit u)).setBuf (s.buf.compressAt s.k)

/-- The data movement of an XBUF unit step (R113): CU, EU and BUF. -/
def State.expandUnitAtK (s : State) : State :=
  let o := s.buf.unit_at_compressed_offset s.k
  (s.setStaging (unpackUnit o) o).setBuf (s.buf.expandAt s.k)

/-- CBUF unit step (R112): the last unit completes, any other moves K up by one. -/
def State.cbufUnitStep (s : State) : State :=
  if s.k = s.cfg.units - 1 then s.compressUnitAtK.completeCbuf else s.compressUnitAtK.setIndex (s.k + 1)

/-- XBUF unit step (R113): unit 0 completes, any other moves K down by one. -/
def State.xbufUnitStep (s : State) : State :=
  if s.k = 0 then s.expandUnitAtK.completeXbuf else s.expandUnitAtK.setIndex (s.k - 1)

/-- One request on the memory port, always one byte wide (spec/20_memory.md R44). -/
inductive PortRequest where
  | read (a : Nat)
  | write (a : Nat) (d : Byte)
deriving DecidableEq, Repr

/-- The offset a request presents. -/
def PortRequest.offset : PortRequest → Nat
  | .read a => a
  | .write a _ => a

/-- The offsets the unit step on unit `k` reads, in its order (spec/42_buffer_codec.md R115). -/
def readOffsets (c : Command) (k : Nat) : List Nat :=
  match c with
  | .cbuf => (List.range 12).map fun j => 12 * k + j
  | .xbuf => (List.range 9).map fun j => 9 * k + j

/-- The offsets the unit step on unit `k` writes, in its order (R115). -/
def writeOffsets (c : Command) (k : Nat) : List Nat :=
  match c with
  | .cbuf => (List.range 9).map fun j => 9 * k + j
  | .xbuf => (List.range 12).map fun j => 12 * k + j

/-- The order in which a command visits the units (R114). -/
def unitOrder (c : Command) (n : Nat) : List Nat :=
  match c with
  | .cbuf => cbufOrder n
  | .xbuf => xbufOrder n

/-- The bytes the unit step on unit `k` writes. -/
def unitOutput (c : Command) (m : Memory) (k : Nat) : List Byte :=
  match c with
  | .cbuf => (packUnit (m.unit_at_expanded_offset k)).toList
  | .xbuf => (unpackUnit (m.unit_at_compressed_offset k)).toList

/-- The requests of the unit step on unit K, every read before every write and both at ascending offsets (R127); none
while IDLE (spec/10_state.md R35). -/
def State.portRequests (s : State) : List PortRequest :=
  match s.phase with
  | .idle => []
  | .busy =>
    (readOffsets s.opl s.k).map .read ++ List.zipWith .write (writeOffsets s.opl s.k) (unitOutput s.opl s.buf s.k)

/-- What one request does to BUF: a read nothing, a write its byte (spec/20_memory.md R44, R47). -/
def Memory.serve (m : Memory) : PortRequest → Memory
  | .read _ => m
  | .write a d => m.write a d

/-- Reset (spec/70_reset_and_hazards.md R160): IDLE, DONE = 0, LEN = 0; OPL, K, EU, CU any value; BUF untouched when
IDLE (R162) and any value when a command was cut short (R161). -/
def State.applyReset (s : State) : State :=
  let t := match s.phase with
    | .idle => s
    | .busy => s.forgetBuf 0 s.cfg.capacity
  t.markReset.forgetSequencer.forgetStaging.advanceDraws 3

/-- An access of the host to `BUF[a]` that changes BUF to `m`: only while IDLE (spec/10_state.md R33); while BUSY it is
refused (spec/93_implementation_defined.md U4), and outside `[0, C)` there is no byte (spec/20_memory.md R40; log 11). -/
def State.hostAccess (s : State) (a : Nat) (m : Memory) : Host.Outcome State Fault Refusal :=
  match s.phase with
  | .busy => .refused (.hostAccessWhileBusy a)
  | .idle => if a < s.cfg.capacity then .next (s.setBuf m) else .fault (.outOfBuffer a)

end Sys2Proof.Machine
end

