-- ==== Sys2Proof/Machine/Commands.lean ====
section
/-! DEFINITION. The meanings of the two commands.  A command is long: one call makes its next architectural step,
acceptance or one unit step (spec/00_scope.md R11; log 8). -/

namespace Sys2Proof.Machine

/-- CBUF (spec/42_buffer_codec.md R110): acceptance when IDLE (R124), a unit step when CBUF is in progress (R112), and
nothing while the other command is, for a request made then is ignored (R124). -/
def execCbuf (s : State) : Host.Outcome State Fault Refusal :=
  match s.phase with
  | .idle => .next s.acceptCbuf
  | .busy =>
    match s.opl with
    | .cbuf => .next s.cbufUnitStep
    | .xbuf => .next s

/-- XBUF (R111): acceptance when IDLE (R124), a unit step when XBUF is in progress (R113), nothing while the other
command is (R124). -/
def execXbuf (s : State) : Host.Outcome State Fault Refusal :=
  match s.phase with
  | .idle => .next s.acceptXbuf
  | .busy =>
    match s.opl with
    | .cbuf => .next s
    | .xbuf => .next s.xbufUnitStep

end Sys2Proof.Machine
end

