-- ==== Sys2Proof/Machine/Datapath.lean ====
section
/-! DEFINITION. The meanings of the data-layout rows: the datapath function the row's layout is for, evaluated on the
datum.  No command and no host move reaches them (spec/00_scope.md R3, spec/30_encoding.md R77; log 9); units go
through the staging registers EU and CU, and what no register of the spec holds is shown in `lane` (log 10). -/

namespace Sys2Proof.Machine

/-- COMPRESSED_UNIT (spec/30_encoding.md R70): CU <- the unit, EU <- `unpackUnit(CU)` (spec/41_unit_transcoder.md R92). -/
def execCompressedUnit (f0 f1 f2 f3 : UnitField) (s : State) : Host.Outcome State Fault Refusal :=
  let o := unitOfFields f0.bits f1.bits f2.bits f3.bits
  .next (s.setStaging (unpackUnit o) o)

/-- EXPANDED_UNIT (R68): EU <- the unit, CU <- `packUnit(EU)` (R90). -/
def execExpandedUnit (s0 s1 s2 s3 : Sample) (s : State) : Host.Outcome State Fault Refusal :=
  let u := unitOfSamples s0 s1 s2 s3
  .next (s.setStaging u (packUnit u))

/-- FIELD (R69): one lane unpacked (spec/41_unit_transcoder.md R100). -/
def execField (f : UnitField) (s : State) : Host.Outcome State Fault Refusal :=
  .next (s.setLane (.sample (laneUnpack f.bits)))

/-- What the SentinelCodec puts out for a byte: its code, and the byte that code decodes to (spec/40_sentinel_codec.md
R80, R81). -/
def sentinelResult (b : Byte) : LaneResult := .sentinel (enc2 b) (dec2 (enc2 b))

/-- SENT_00 (R71). -/
def execSent00 (s : State) : Host.Outcome State Fault Refusal := .next (s.setLane (sentinelResult 0x00))

/-- SENT_7F (R71). -/
def execSent7F (s : State) : Host.Outcome State Fault Refusal := .next (s.setLane (sentinelResult 0x7F))

/-- SENT_80 (R71). -/
def execSent80 (s : State) : Host.Outcome State Fault Refusal := .next (s.setLane (sentinelResult 0x80))

/-- SENT_FF (R71). -/
def execSentFF (s : State) : Host.Outcome State Fault Refusal := .next (s.setLane (sentinelResult 0xFF))

/-- SENT_OTHER (R71): the lossy fallback (R82). -/
def execSentOther (b : Byte) (s : State) : Host.Outcome State Fault Refusal := .next (s.setLane (sentinelResult b))

end Sys2Proof.Machine
end

