-- ==== Sys2Proof/Machine/Dispatch.lean ====
section
/-! DEFINITION. One arm per row of the opcode table. -/

namespace Sys2Proof.Machine

def exec (i : Instr) (s : State) : Host.Outcome State Fault Refusal :=
  match i with
  | .cbuf => Sys2Proof.Machine.execCbuf s
  | .xbuf => Sys2Proof.Machine.execXbuf s
  | .compressedUnit f0 f1 f2 f3 => Sys2Proof.Machine.execCompressedUnit f0 f1 f2 f3 s
  | .expandedUnit s0 s1 s2 s3 => Sys2Proof.Machine.execExpandedUnit s0 s1 s2 s3 s
  | .field f => Sys2Proof.Machine.execField f s
  | .sent00 => Sys2Proof.Machine.execSent00 s
  | .sent7F => Sys2Proof.Machine.execSent7F s
  | .sent80 => Sys2Proof.Machine.execSent80 s
  | .sentFF => Sys2Proof.Machine.execSentFF s
  | .sentOther b => Sys2Proof.Machine.execSentOther b s

end Sys2Proof.Machine
end

