-- ==== Sys2Proof/Machine/Fetch.lean ====
section
/-! DEFINITION. What the coming step does: it samples the host's inputs (spec/10_state.md R33), and takes its
instruction from `op` at acceptance and from OPL after it (spec/42_buffer_codec.md R124; log 8). -/

namespace Sys2Proof.Machine

/-- What one step does. -/
inductive Action where
  /-- Run an instruction. -/
  | run (i : Instr)
  /-- Reset, which "overrides every other rule in that step" (spec/70_reset_and_hazards.md R160). -/
  | reset
  /-- Wait in IDLE for a command (spec/10_state.md R35). -/
  | wait
  /-- Serve the host's access to `BUF[a]`, which leaves BUF as `m`. -/
  | access (a : Nat) (m : Memory)
deriving DecidableEq, Repr

/-- Nothing asserted. -/
def quiet : HostMove := .drive false false 0

/-- What the host does in the coming step. -/
def State.move (s : State) : HostMove := s.inputs.headD quiet

/-- The instruction of the command in progress (R23: every unit step reads OPL). -/
def commandInstr : Command → Instr
  | .cbuf => .cbuf
  | .xbuf => .xbuf

/-- What the input ports ask for: reset first; then the running command's next unit step, a `start` being ignored; in
IDLE an accepted command, or nothing (R124, R145, R160). -/
def State.portAction (s : State) (rst start : Bool) (op : BitVec 1) : Action :=
  if rst then .reset
  else match s.phase with
    | .busy => .run (commandInstr s.opl)
    | .idle => if start then .run (decodeOp op) else .wait

/-- What the coming step does.  A datum of `bench` comes before everything (log 9). -/
def State.action (s : State) : Action :=
  match s.bench with
  | some d => .run (decodeDatum d)
  | none =>
    match s.move with
    | .drive rst start op => s.portAction rst start op
    | .read a => .access a s.buf
    | .write a d => .access a (s.buf.write a d)

/-- The state a step works on: the datum of `bench` taken, or else one entry of `inputs`. -/
def State.sampled (s : State) : State :=
  match s.bench with
  | some _ => { s with bench := none }
  | none => { s with inputs := s.inputs.tail }

/-- Put the instruction of a pattern where the very next step takes it from: a command on the input ports of an idle
transcoder, a datum on `bench` (log 17). -/
def State.present (s : State) : Encoded → State
  | .cmd1 op => { s with phase := .idle, bench := none, inputs := .drive false true op :: s.inputs }
  | .data d => { s with bench := some d }

end Sys2Proof.Machine
end

