-- ==== Sys2Proof/Machine/Step.lean ====
section
/-! DEFINITION. One step of the machine, and the placing of one table word where it is taken next. -/

namespace Sys2Proof.Machine

/-- One step (spec/00_scope.md R11): one unit step while BUSY; while IDLE an acceptance, an access of the host, or
nothing; a reset whenever it is asserted. -/
def step (s : State) : Host.Outcome State Fault Refusal :=
  match s.action with
  | .run i => exec i s.sampled
  | .reset => .next s.sampled.applyReset
  | .wait => .next s.sampled
  | .access a m => s.sampled.hostAccess a m

/-- `s` with the table word `w` of `nbits` bits where the next step takes its instruction from; `s` itself for a word
that is no pattern of any row. -/
def State.withFetchWord (s : State) (nbits w : Nat) : State :=
  match patternOf nbits w with
  | .ok e => s.present e
  | .error _ => s

end Sys2Proof.Machine
end

