-- ==== Sys2Proof/Machine/HostScript.lean ====
section
/-! DEFINITION. Host scripts (spec/30_encoding.md R76) as the host moves they stand for, and what the host may take at
the end of a run (spec/70_reset_and_hazards.md R164, R170, R174, R177). -/

namespace Sys2Proof.Machine

/-- A line of a host script. -/
inductive ScriptLine where
  /-- `CBUF` or `XBUF`. -/
  | command (c : Command)
  /-- `BUF[a..b] := bytes`, from offset `a` on. -/
  | fill (a : Nat) (bytes : List Byte)
  /-- `read BUF[a..b]`, the `n` bytes from offset `a` on. -/
  | look (a n : Nat)
deriving DecidableEq, Repr

/-- The `OP` bit of a command (spec/30_encoding.md R65). -/
def opOf : Command → BitVec 1
  | .cbuf => 0
  | .xbuf => 1

/-- Assert nothing for `n` steps: the host's wait for `done = 1`. -/
def quietFor (n : Nat) : List HostMove := List.replicate n quiet

/-- The host moves of a line, on an idle transcoder of `N` units: a command presents `op`, asserts `start` and waits for
its `N` unit steps; the host's own accesses go byte by byte, ascending. -/
def ScriptLine.moves (cfg : Config) : ScriptLine → List HostMove
  | .command c => .drive false true (opOf c) :: quietFor cfg.units
  | .fill a bytes => List.zipWith .write (List.range' a bytes.length) bytes
  | .look a n => (List.range' a n).map .read

/-- The host moves of a script. -/
def scriptMoves (cfg : Config) (lines : List ScriptLine) : List HostMove := lines.flatMap (ScriptLine.moves cfg)

/-- What the host may take at the end of a run, and only then (R177): the bytes `BUF[0 .. LEN)` (R164, R170, R174). -/
def State.result (s : State) : Option (List Byte) :=
  if s.endOfRun then some ((List.range s.len).map s.buf.read) else none

end Sys2Proof.Machine
end

