-- ==== Sys2Proof/Safety.lean ====
section
/-! DEFINITION. What counts as a legal state, as the host's side of the contract, and as a command
on its way: the terms the claims use. -/

namespace Sys2Proof.Machine

/-- The legal states: BUF in canonical form and inside `[0, C)`; while BUSY the unit index is one of the N units
(spec/10_state.md R24) and DONE is clear (R28); LEN is 0 or a length some command returns, and one of those lengths
when DONE is set (R27, spec/42_buffer_codec.md R121). -/
structure State.Legal (s : State) : Prop where
  bufCanonical : s.buf.wf = true
  bufInRange : s.buf.below s.cfg.capacity = true
  indexInRange : s.phase = .busy → s.k < s.cfg.units
  busyNotDone : s.phase = .busy → s.done = false
  lengthLegal : s.len = 0 ∨ s.len = s.cfg.compressedLength ∨ s.len = s.cfg.capacity
  doneLength : s.done = true → s.len = s.cfg.compressedLength ∨ s.len = s.cfg.capacity

/-- The sentinel precondition on the expanded view (spec/70_reset_and_hazards.md R169): byte 0 of each of the `4N`
samples is in the sentinel set. -/
def State.SentinelsHold (s : State) : Prop := ∀ i, i < 4 * s.cfg.units → isSentinel (s.buf.read (3 * i)) = true

/-- A host move that neither resets the transcoder nor touches BUF: what the host may do while BUSY (R178), and also a
`start`, which is ignored then (spec/42_buffer_codec.md R124). -/
def HostMove.leavesAlone : HostMove → Bool
  | .drive rst _ _ => !rst
  | .read _ => false
  | .write _ _ => false

/-- The host leaves the transcoder alone for the coming `n` steps. -/
def State.leftAloneFor (s : State) (n : Nat) : Prop := ∀ m ∈ s.inputs.take n, m.leavesAlone = true

/-- CBUF is in progress on the buffer contents `source`: the units below K are compressed and every byte from `9K` on
is still the source's (spec/42_buffer_codec.md R116). -/
structure State.CompressingFrom (source : Memory) (s : State) : Prop where
  busy : s.phase = .busy
  command : s.opl = .cbuf
  index : s.k < s.cfg.units
  canonical : s.buf.wf = true
  written : ∀ a, a < 9 * s.k → s.buf.read a = compressedByteOf source a
  unread : ∀ a, 9 * s.k ≤ a → s.buf.read a = source.read a

/-- CBUF has completed on `source`, with the result a separate destination buffer would hold (R118). -/
structure State.CompressedFrom (source : Memory) (s : State) : Prop where
  ended : s.endOfRun = true
  length : s.len = s.cfg.compressedLength
  result : ∀ a, a < s.cfg.compressedLength → s.buf.read a = compressedByteOf source a

/-- XBUF is in progress on `source`: the units above K are expanded and every byte below `12(K+1)` is still the
source's (spec/42_buffer_codec.md R117). -/
structure State.ExpandingFrom (source : Memory) (s : State) : Prop where
  busy : s.phase = .busy
  command : s.opl = .xbuf
  index : s.k < s.cfg.units
  canonical : s.buf.wf = true
  written : ∀ a, 12 * (s.k + 1) ≤ a → a < s.cfg.capacity → s.buf.read a = expandedByteOf source a
  unread : ∀ a, a < 12 * (s.k + 1) → s.buf.read a = source.read a

/-- XBUF has completed on `source`, with the result a separate destination buffer would hold (R119). -/
structure State.ExpandedFrom (source : Memory) (s : State) : Prop where
  ended : s.endOfRun = true
  length : s.len = s.cfg.capacity
  result : ∀ a, a < s.cfg.capacity → s.buf.read a = expandedByteOf source a

/-- Two states differ only in what the host cannot see: EU and CU, and while IDLE also OPL and K (spec/10_state.md R34).
The model's own fields are equal. -/
structure State.SameButHidden (s t : State) : Prop where
  phase : s.phase = t.phase
  len : s.len = t.len
  done : s.done = t.done
  buf : s.buf = t.buf
  cfg : s.cfg = t.cfg
  inputs : s.inputs = t.inputs
  bench : s.bench = t.bench
  lane : s.lane = t.lane
  draws : s.draws = t.draws
  command : s.phase = .busy → s.opl = t.opl
  index : s.phase = .busy → s.k = t.k

end Sys2Proof.Machine
end

