-- ==== Sys2Proof/Certificates/Slice0/Obligations.lean ====
section
/-! DEFINITION. The statements for the provers, from the numbered rules of spec/.  Where a statement holds "for every
value of the free values", it names one only as the constant the model draws. -/

open Sys2Proof Sys2Proof.Machine

/-! Encodings. -/

/-- Patterns written out from the tables of spec/30_encoding.md (R65, R68 to R71) and the vector PK6 decode to what
they stand for. -/
def Obligations.WordsFromTheTablesDecode : Prop :=
  decode (.cmd1 0b0) = .cbuf ∧
  decode (.cmd1 0b1) = .xbuf ∧
  decode (.data (.data72 0x048D15678A6AF3DEF0)) =
    .compressedUnit ⟨0b00, 0x1234⟩ ⟨0b01, 0x5678⟩ ⟨0b10, 0x9ABC⟩ ⟨0b11, 0xDEF0⟩ ∧
  decode (.data (.data96 0x0012347F5678809ABCFFDEF0)) =
    .expandedUnit ⟨0x00, 0x12, 0x34⟩ ⟨0x7F, 0x56, 0x78⟩ ⟨0x80, 0x9A, 0xBC⟩ ⟨0xFF, 0xDE, 0xF0⟩ ∧
  decode (.data (.data18 0b011010101010111011)) = .field ⟨0b01, 0xAABB⟩ ∧
  decode (.data (.data8 0x00)) = .sent00 ∧
  decode (.data (.data8 0x7F)) = .sent7F ∧
  decode (.data (.data8 0x80)) = .sent80 ∧
  decode (.data (.data8 0xFF)) = .sentFF ∧
  decode (.data (.data8 0x40)) = .sentOther 0x40

/-- Decoding an encoded instruction gives it back, with every operand at every value: no bit of an encoding is dropped
(R65, R68 to R71). -/
def Obligations.DecodeOfEncodeIsIdentity : Prop :=
  ∀ i : Instr, i.wellFormed = true → decode (encode i) = i

/-- Every pattern of every format is valid and has one meaning (R73, R74, R77). -/
def Obligations.EveryPatternDecodesToItself : Prop :=
  ∀ e : Encoded, (decode e).wellFormed = true ∧ encode (decode e) = e

/-- A row's pattern, as a table word of the row's width, decodes to the row's instruction.  The bytes 0x00 and 0x01 are
the model's choice (log 12): they are the commands, so the two rows that share them are named out. -/
def Obligations.TableWordsDecodeToTheirRow : Prop :=
  ∀ i : Instr, i.wellFormed = true → i ≠ .sent00 → i ≠ .sentOther 0x01 →
    decodeTableWord (encode i).width (encode i).bits = some i

/-! SentinelCodec. -/

/-- R80, with its counts: one byte value gives each of the first three codes, 253 give 0b11. -/
def Obligations.SentinelEncodeFollowsTheTable : Prop :=
  enc2 0x00 = 0b00 ∧ enc2 0x7F = 0b01 ∧ enc2 0x80 = 0b10 ∧
  (∀ b : Byte, b ≠ 0x00 → b ≠ 0x7F → b ≠ 0x80 → enc2 b = 0b11) ∧
  ((List.range 256).filter fun n => enc2 (BitVec.ofNat 8 n) = 0b11).length = 253

/-- R81: the four rows; injective, with exactly the sentinel set as its image. -/
def Obligations.SentinelDecodeFollowsTheTable : Prop :=
  dec2 0b00 = 0x00 ∧ dec2 0b01 = 0x7F ∧ dec2 0b10 = 0x80 ∧ dec2 0b11 = 0xFF ∧
  (∀ c c' : Code, dec2 c = dec2 c' → c = c') ∧
  (∀ b : Byte, isSentinel b = true ↔ ∃ c : Code, dec2 c = b)

/-- R82 and R85: the round trip of a byte, with the lossy fallback. -/
def Obligations.SentinelRoundTripIsLossyFallback : Prop :=
  ∀ b : Byte, dec2 (enc2 b) = if isSentinel b then b else 0xFF

/-- R83: the round trip of a code; `dec2 ∘ enc2` is idempotent and lands in the sentinel set. -/
def Obligations.CodeRoundTripIsIdentity : Prop :=
  (∀ c : Code, enc2 (dec2 c) = c) ∧
  (∀ b : Byte, dec2 (enc2 (dec2 (enc2 b))) = dec2 (enc2 b) ∧ isSentinel (dec2 (enc2 b)) = true)

/-! UnitTranscoder. -/

/-- R70: a compressed unit and its 72-bit number determine each other, byte 0 most significant. -/
def Obligations.CompressedBytesAndWordAgree : Prop :=
  (∀ w : BitVec 72, compressedWord (compressedBytes w) = w) ∧
  (∀ o : CompressedUnit, compressedBytes (compressedWord o) = o) ∧
  (∀ f0 f1 f2 f3 : BitVec 18,
    let w := compressedWord (unitOfFields f0 f1 f2 f3)
    fieldAt w 0 = f0 ∧ fieldAt w 1 = f1 ∧ fieldAt w 2 = f2 ∧ fieldAt w 3 = f3)

/-- R91: `packUnit`, byte by byte. -/
def Obligations.PackUnitByteFormulas : Prop :=
  ∀ u : ExpandedUnit,
    let c0 := (enc2 u[0]).setWidth 8
    let c1 := (enc2 u[3]).setWidth 8
    let c2 := (enc2 u[6]).setWidth 8
    let c3 := (enc2 u[9]).setWidth 8
    packUnit u = #v[
      (c0 <<< 6) ||| (u[1] >>> 2),
      ((u[1] &&& 0x03) <<< 6) ||| (u[2] >>> 2),
      ((u[2] &&& 0x03) <<< 6) ||| (c1 <<< 4) ||| (u[4] >>> 4),
      ((u[4] &&& 0x0F) <<< 4) ||| (u[5] >>> 4),
      ((u[5] &&& 0x0F) <<< 4) ||| (c2 <<< 2) ||| (u[7] >>> 6),
      ((u[7] &&& 0x3F) <<< 2) ||| (u[8] >>> 6),
      ((u[8] &&& 0x3F) <<< 2) ||| c3,
      u[10],
      u[11]]

/-- R93: `unpackUnit`, byte by byte. -/
def Obligations.UnpackUnitByteFormulas : Prop :=
  ∀ o : CompressedUnit,
    let c0 := (o[0] >>> 6).setWidth 2
    let c1 := ((o[2] >>> 4) &&& 0x03).setWidth 2
    let c2 := ((o[4] >>> 2) &&& 0x03).setWidth 2
    let c3 := (o[6] &&& 0x03).setWidth 2
    unpackUnit o = #v[
      dec2 c0,
      ((o[0] &&& 0x3F) <<< 2) ||| (o[1] >>> 6),
      ((o[1] &&& 0x3F) <<< 2) ||| (o[2] >>> 6),
      dec2 c1,
      ((o[2] &&& 0x0F) <<< 4) ||| (o[3] >>> 4),
      ((o[3] &&& 0x0F) <<< 4) ||| (o[4] >>> 4),
      dec2 c2,
      ((o[4] &&& 0x03) <<< 6) ||| (o[5] >>> 2),
      ((o[5] &&& 0x03) <<< 6) ||| (o[6] >>> 2),
      dec2 c3,
      o[7],
      o[8]]

/-- R94: a unit whose four sentinel bytes are in the sentinel set comes back byte for byte. -/
def Obligations.UnitRoundTripIsExact : Prop :=
  ∀ u : ExpandedUnit,
    isSentinel u[0] = true → isSentinel u[3] = true → isSentinel u[6] = true → isSentinel u[9] = true →
    unpackUnit (packUnit u) = u

/-- R95, with no precondition: each sentinel byte becomes `dec2 (enc2 ·)`, payload bytes stay, the unit comes back
exactly when its sentinel bytes are in the set, and the map is idempotent. -/
def Obligations.UnitRoundTripCanonicalises : Prop :=
  ∀ u : ExpandedUnit,
    let v := unpackUnit (packUnit u)
    (∀ i : Fin 4, sampleAt v i = ⟨dec2 (enc2 (sampleAt u i).byte0), (sampleAt u i).byte1, (sampleAt u i).byte2⟩) ∧
    (v = u ↔ ∀ i : Fin 4, isSentinel (sampleAt u i).byte0 = true) ∧
    unpackUnit (packUnit v) = v

/-- R97: the other composition is the identity with no precondition; so `unpackUnit` is injective, `packUnit` is
surjective, and restricted to the units that meet the precondition it is a bijection. -/
def Obligations.CompressedRoundTripIsIdentity : Prop :=
  (∀ o : CompressedUnit, packUnit (unpackUnit o) = o) ∧
  (∀ o o' : CompressedUnit, unpackUnit o = unpackUnit o' → o = o') ∧
  (∀ o : CompressedUnit, ∃ u : ExpandedUnit, packUnit u = o ∧
    (∀ i : Fin 4, isSentinel (sampleAt u i).byte0 = true) ∧
    (∀ u' : ExpandedUnit, packUnit u' = o → (∀ i : Fin 4, isSentinel (sampleAt u' i).byte0 = true) → u' = u))

/-- R98: what `packUnit` loses of a sample is its sentinel byte up to the code, and nothing else. -/
def Obligations.PackUnitLosesOnlySentinelAliases : Prop :=
  ∀ u v : ExpandedUnit, packUnit u = packUnit v ↔
    ∀ i : Fin 4, enc2 (sampleAt u i).byte0 = enc2 (sampleAt v i).byte0 ∧
      (sampleAt u i).byte1 = (sampleAt v i).byte1 ∧ (sampleAt u i).byte2 = (sampleAt v i).byte2

/-- R100: lane `i` of either function's output is the per-lane function of lane `i` of its input; so the sentinel bytes
of every unpacked unit are in the sentinel set (R92). -/
def Obligations.LanesAreIndependent : Prop :=
  (∀ (u : ExpandedUnit) (i : Fin 4), fieldAt (compressedWord (packUnit u)) i = lanePack (sampleAt u i)) ∧
  (∀ (o : CompressedUnit) (i : Fin 4), sampleAt (unpackUnit o) i = laneUnpack (fieldAt (compressedWord o) i)) ∧
  (∀ (o : CompressedUnit) (i : Fin 4), isSentinel (sampleAt (unpackUnit o) i).byte0 = true)

/-! Configuration and memory. -/

/-- R141: the one static check.  A capacity that 12 does not divide is refused by name; any other is a configuration of
exactly that capacity. -/
def Obligations.CapacityCheckRefusesNonMultiples : Prop :=
  ∀ c : Nat,
    (12 ∣ c → ∃ k : Config, Config.ofCapacity c = .ok k ∧ k.capacity = c ∧ 12 * k.units = c) ∧
    (¬ 12 ∣ c → Config.ofCapacity c = .error (.configInvalid c))

/-- R8, R128: every offset fits AW bits and every length fits LW bits; and no smaller LW would do. -/
def Obligations.OffsetsAndLengthsFitTheirWidths : Prop :=
  ∀ c : Config,
    (∀ a, a < c.capacity → a < 2 ^ c.addressWidth) ∧
    (∀ l, l ≤ c.capacity → l < 2 ^ c.lengthWidth) ∧
    (∀ w, c.capacity < 2 ^ w → c.lengthWidth ≤ w)

/-- The canonical form of BUF is canonical: two buffers of that form that read alike are equal. -/
def Obligations.CanonicalBuffersReadingAlikeAreEqual : Prop :=
  ∀ m m' : Memory, m.wf = true → m'.wf = true → (∀ a, m.read a = m'.read a) → m = m'

/-! Acceptance, unit steps, completion. -/

/-- R124: a `start` in IDLE accepts the command on `op`; with N = 0 completion follows at once; a `start` in BUSY is
ignored, and so is `op`. -/
def Obligations.StartIsAcceptedWhenIdleAndIgnoredWhenBusy : Prop :=
  ∀ (s : State) (op : BitVec 1) (r : List HostMove), s.bench = none → s.inputs = .drive false true op :: r →
    (s.phase = .idle → 0 < s.cfg.units →
      step s = .next { s with
        inputs := r, phase := .busy, done := false
        opl := if op = 0 then .cbuf else .xbuf
        k := if op = 0 then 0 else s.cfg.units - 1 }) ∧
    (s.phase = .idle → s.cfg.units = 0 →
      ∃ t, step s = .next t ∧ t.phase = .idle ∧ t.done = true ∧ t.len = 0 ∧ ∀ a, t.buf.read a = s.buf.read a) ∧
    (s.phase = .busy → step s = step { s with inputs := quiet :: r })

/-- CBUF completes its acceptance (R124) in every idle state of a machine with a unit. -/
def Obligations.CbufIsAcceptedWhenIdle : Prop :=
  ∀ s : State, s.phase = .idle → 0 < s.cfg.units →
    exec .cbuf s = .next { s with phase := .busy, opl := .cbuf, k := 0, done := false }

/-- XBUF completes its acceptance (R124) in every idle state of a machine with a unit. -/
def Obligations.XbufIsAcceptedWhenIdle : Prop :=
  ∀ s : State, s.phase = .idle → 0 < s.cfg.units →
    exec .xbuf s = .next { s with phase := .busy, opl := .xbuf, k := s.cfg.units - 1, done := false }

/-- R112: the CBUF unit step, from every state in which it is enabled; and the two ranges of unit `k` overlap exactly
for `k < 3`. -/
def Obligations.CbufUnitStepPacksOneUnit : Prop :=
  (∀ s : State, s.phase = .busy → s.opl = .cbuf → s.buf.wf = true →
    ∃ t, exec .cbuf s = .next t ∧
      t.eu = s.buf.memRead (12 * s.k) 12 ∧
      t.cu = packUnit t.eu ∧
      (∀ j (h : j < 9), t.buf.read (9 * s.k + j) = t.cu[j]) ∧
      (s.k = s.cfg.units - 1 → t.phase = .idle ∧ t.done = true ∧ t.len = s.cfg.compressedLength) ∧
      (s.k ≠ s.cfg.units - 1 →
        t.k = s.k + 1 ∧ t.phase = .busy ∧ t.opl = .cbuf ∧ t.done = s.done ∧ t.len = s.len)) ∧
  (∀ k, (∃ a ∈ readOffsets .cbuf k, a ∈ writeOffsets .cbuf k) ↔ k < 3)

/-- R113: the XBUF unit step, from every state in which it is enabled; again the two ranges overlap exactly for
`k < 3`. -/
def Obligations.XbufUnitStepUnpacksOneUnit : Prop :=
  (∀ s : State, s.phase = .busy → s.opl = .xbuf → s.buf.wf = true →
    ∃ t, exec .xbuf s = .next t ∧
      t.cu = s.buf.memRead (9 * s.k) 9 ∧
      t.eu = unpackUnit t.cu ∧
      (∀ j (h : j < 12), t.buf.read (12 * s.k + j) = t.eu[j]) ∧
      (s.k = 0 → t.phase = .idle ∧ t.done = true ∧ t.len = s.cfg.capacity) ∧
      (s.k ≠ 0 → t.k = s.k - 1 ∧ t.phase = .busy ∧ t.opl = .xbuf ∧ t.done = s.done ∧ t.len = s.len)) ∧
  (∀ k, (∃ a ∈ readOffsets .xbuf k, a ∈ writeOffsets .xbuf k) ↔ k < 3)

/-- R121: a command that completes returns `9N = 0.75·C` (CBUF) or `C` (XBUF), whatever the buffer holds. -/
def Obligations.LengthsFollowTheSizeLaw : Prop :=
  (∀ s t : State, s.done = false → exec .cbuf s = .next t → t.done = true →
    t.len = 9 * s.cfg.units ∧ 4 * t.len = 3 * s.cfg.capacity) ∧
  (∀ s t : State, s.done = false → exec .xbuf s = .next t → t.done = true →
    t.len = s.cfg.capacity ∧ t.len = 12 * s.cfg.units)

/-- R120 in the model's form (log 4): after CBUF each trailing byte is a free value, so no claim can depend on one. -/
def Obligations.TrailingBytesAreFreeAfterCbuf : Prop :=
  ∀ s : State, s.phase = .busy → s.opl = .cbuf → s.k = s.cfg.units - 1 → s.buf.wf = true →
    ∃ t, exec .cbuf s = .next t ∧
      ∀ a, s.cfg.compressedLength ≤ a → a < s.cfg.capacity → t.buf.read a = Config.freeByte s.draws a

/-! Frames of the two commands. -/

/-- What CBUF leaves unchanged.  Acceptance touches neither BUF nor EU, CU, LEN (unless N = 0, where it completes at
once); a unit step writes BUF at `[9K, 9K+9)` only, and the last one frees `[9N, C)`; LEN moves only at completion. -/
def Obligations.CbufFrame : Prop :=
  ∀ s t : State, exec .cbuf s = .next t →
    t.cfg = s.cfg ∧ t.inputs = s.inputs ∧ t.bench = s.bench ∧ t.lane = s.lane ∧
    (¬ (s.phase = .busy ∧ s.opl = .cbuf) → t.eu = s.eu ∧ t.cu = s.cu) ∧
    (t.phase = .busy → t.len = s.len ∧ t.draws = s.draws) ∧
    (s.phase = .busy → t.phase = .busy → t.opl = s.opl ∧ t.done = s.done) ∧
    (s.phase = .busy → s.opl = .xbuf → t = s) ∧
    (∀ a, ¬ (s.phase = .busy ∧ s.opl = .cbuf ∧ 9 * s.k ≤ a ∧ a < 9 * s.k + 9) →
      ¬ (t.phase = .idle ∧ s.cfg.compressedLength ≤ a ∧ a < s.cfg.capacity) →
      t.buf.read a = s.buf.read a)

/-- What XBUF leaves unchanged: as CBUF, but a unit step writes BUF at `[12K, 12K+12)` and completion frees nothing. -/
def Obligations.XbufFrame : Prop :=
  ∀ s t : State, exec .xbuf s = .next t →
    t.cfg = s.cfg ∧ t.inputs = s.inputs ∧ t.bench = s.bench ∧ t.lane = s.lane ∧
    (¬ (s.phase = .busy ∧ s.opl = .xbuf) → t.eu = s.eu ∧ t.cu = s.cu) ∧
    (t.phase = .busy → t.len = s.len ∧ t.draws = s.draws) ∧
    (s.phase = .busy → t.phase = .busy → t.opl = s.opl ∧ t.done = s.done) ∧
    (s.phase = .busy → s.opl = .cbuf → t = s) ∧
    (∀ a, ¬ (s.phase = .busy ∧ s.opl = .xbuf ∧ 12 * s.k ≤ a ∧ a < 12 * s.k + 12) →
      t.buf.read a = s.buf.read a)

/-! The data-layout rows: the datapath functions, evaluated on a datum (the model's placing of them: logs 9, 10). -/

/-- EXPANDED_UNIT in every state: EU takes the four samples in storage order and CU their packing, lane by lane (R68,
R90).  That the row runs, on these registers, is the model's choice (log 9). -/
def Obligations.ExpandedUnitIsPacked : Prop :=
  ∀ (s0 s1 s2 s3 : Sample) (s : State), ∃ t, exec (.expandedUnit s0 s1 s2 s3) s = .next t ∧
    sampleAt t.eu 0 = s0 ∧ sampleAt t.eu 1 = s1 ∧ sampleAt t.eu 2 = s2 ∧ sampleAt t.eu 3 = s3 ∧
    UnitField.ofBits (fieldAt (compressedWord t.cu) 0) = ⟨enc2 s0.byte0, s0.byte1 ++ s0.byte2⟩ ∧
    UnitField.ofBits (fieldAt (compressedWord t.cu) 1) = ⟨enc2 s1.byte0, s1.byte1 ++ s1.byte2⟩ ∧
    UnitField.ofBits (fieldAt (compressedWord t.cu) 2) = ⟨enc2 s2.byte0, s2.byte1 ++ s2.byte2⟩ ∧
    UnitField.ofBits (fieldAt (compressedWord t.cu) 3) = ⟨enc2 s3.byte0, s3.byte1 ++ s3.byte2⟩

/-- COMPRESSED_UNIT in every state: CU takes the four fields and EU their unpacking, lane by lane (R70, R92).
That the row runs, on these registers, is the model's choice (log 9). -/
def Obligations.CompressedUnitIsUnpacked : Prop :=
  ∀ (f0 f1 f2 f3 : UnitField) (s : State), ∃ t, exec (.compressedUnit f0 f1 f2 f3) s = .next t ∧
    fieldAt (compressedWord t.cu) 0 = f0.bits ∧
    fieldAt (compressedWord t.cu) 1 = f1.bits ∧
    fieldAt (compressedWord t.cu) 2 = f2.bits ∧
    fieldAt (compressedWord t.cu) 3 = f3.bits ∧
    sampleAt t.eu 0 = ⟨dec2 f0.code, f0.payload.extractLsb' 8 8, f0.payload.extractLsb' 0 8⟩ ∧
    sampleAt t.eu 1 = ⟨dec2 f1.code, f1.payload.extractLsb' 8 8, f1.payload.extractLsb' 0 8⟩ ∧
    sampleAt t.eu 2 = ⟨dec2 f2.code, f2.payload.extractLsb' 8 8, f2.payload.extractLsb' 0 8⟩ ∧
    sampleAt t.eu 3 = ⟨dec2 f3.code, f3.payload.extractLsb' 8 8, f3.payload.extractLsb' 0 8⟩

/-- FIELD in every state: `dec2` of the code, then the payload's two bytes (R69, R100).  That the row runs, and
`lane`, are the model's choice (logs 9, 10). -/
def Obligations.FieldIsUnpacked : Prop :=
  ∀ (f : UnitField) (s : State), exec (.field f) s =
    .next { s with lane := some (.sample
      ⟨dec2 f.code, f.payload.extractLsb' 8 8, f.payload.extractLsb' 0 8⟩) }

/-- The five sentinel rows in every state: the code of R80 and the byte of R81.  That the rows run, and `lane`, are the
model's choice (logs 9, 10). -/
def Obligations.SentinelRowsGiveCodeAndByte : Prop :=
  ∀ s : State,
    exec .sent00 s = .next { s with lane := some (.sentinel 0b00 0x00) } ∧
    exec .sent7F s = .next { s with lane := some (.sentinel 0b01 0x7F) } ∧
    exec .sent80 s = .next { s with lane := some (.sentinel 0b10 0x80) } ∧
    exec .sentFF s = .next { s with lane := some (.sentinel 0b11 0xFF) } ∧
    (∀ b : Byte, isSentinel b = false → exec (.sentOther b) s = .next { s with lane := some (.sentinel 0b11 0xFF) })

/-- What the eight data-layout rows leave unchanged: everything but EU and CU (the two unit rows) or `lane` (the rest).
The functions behind them write nothing (the purity rules R84, R101).  That the rows run at all, and that their results
stand in EU and CU (log 9) or in `lane` (log 10) and nowhere else, is the model's own choice. -/
def Obligations.DatapathFrame : Prop :=
  ∀ (i : Instr) (s t : State), i ≠ .cbuf → i ≠ .xbuf → exec i s = .next t →
    t = { s with eu := t.eu, cu := t.cu, lane := t.lane } ∧
    ((∃ f0 f1 f2 f3, i = .compressedUnit f0 f1 f2 f3) ∨ (∃ s0 s1 s2 s3, i = .expandedUnit s0 s1 s2 s3) →
      t.lane = s.lane) ∧
    ((∀ f0 f1 f2 f3, i ≠ .compressedUnit f0 f1 f2 f3) → (∀ s0 s1 s2 s3, i ≠ .expandedUnit s0 s1 s2 s3) →
      t.eu = s.eu ∧ t.cu = s.cu)

/-! The step. -/

/-- A step runs the decoded instruction.  In IDLE a `start` takes it from `op`; in BUSY it is the command in OPL,
whatever the ports say short of reset; a datum of `bench` comes first.  Around exec the step only takes the input. -/
def Obligations.StepRunsTheDecodedInstruction : Prop :=
  ∀ s : State,
    (∀ d, s.bench = some d → step s = exec (decode (.data d)) { s with bench := none }) ∧
    (∀ op r, s.bench = none → s.phase = .idle → s.inputs = .drive false true op :: r →
      step s = exec (decode (.cmd1 op)) { s with inputs := r }) ∧
    (∀ start op r, s.bench = none → s.phase = .busy → s.inputs = .drive false start op :: r →
      step s = exec (commandInstr s.opl) { s with inputs := r }) ∧
    (s.bench = none → s.phase = .busy → s.inputs = [] → step s = exec (commandInstr s.opl) s)

/-- A table word placed with `withFetchWord` is what the very next step runs. -/
def Obligations.PlacedTableWordIsRunNext : Prop :=
  ∀ (s : State) (nbits w : Nat) (i : Instr), s.bench = none → decodeTableWord nbits w = some i →
    step (s.withFetchWord nbits w) =
      exec i (if i = .cbuf ∨ i = .xbuf then { s with phase := .idle } else s)

/-- R35: an idle transcoder with nothing asserted waits, and changes nothing. -/
def Obligations.IdleTranscoderWaits : Prop :=
  ∀ s : State, s.bench = none → s.phase = .idle →
    (s.inputs = [] → step s = .next s) ∧
    (∀ op r, s.inputs = .drive false false op :: r → step s = .next { s with inputs := r })

/-- R33, R178: the host writes and reads any byte of BUF while IDLE; while BUSY its access is refused (U4), and outside
`[0, C)` there is no byte (R40; log 11). -/
def Obligations.HostAccessOnlyWhenIdle : Prop :=
  ∀ (s : State) (a : Nat) (r : List HostMove), s.bench = none →
    (∀ d, s.inputs = .write a d :: r →
      (s.phase = .idle → a < s.cfg.capacity → s.buf.wf = true →
        ∃ t, step s = .next t ∧ t = { s with inputs := r, buf := t.buf } ∧
          ∀ x, t.buf.read x = if x = a then d else s.buf.read x) ∧
      (s.phase = .idle → s.cfg.capacity ≤ a → step s = .fault (.outOfBuffer a)) ∧
      (s.phase = .busy → step s = .refused (.hostAccessWhileBusy a))) ∧
    (s.inputs = .read a :: r →
      (s.phase = .idle → a < s.cfg.capacity → step s = .next { s with inputs := r }) ∧
      (s.phase = .idle → s.cfg.capacity ≤ a → step s = .fault (.outOfBuffer a)) ∧
      (s.phase = .busy → step s = .refused (.hostAccessWhileBusy a)))

/-- R125, R162: while IDLE the transcoder makes no request, and no step but a host write changes BUF (with a unit to
work on: N = 0 completes at acceptance). -/
def Obligations.IdleTranscoderLeavesTheBuffer : Prop :=
  ∀ s t : State, s.phase = .idle → 0 < s.cfg.units → step s = .next t →
    (∀ a d, s.move ≠ .write a d) → s.portRequests = [] ∧ t.buf = s.buf

/-! Reset. -/

/-- R35: the state after reset, in the values the spec gives. -/
def Obligations.ResetStateIsIdle : Prop :=
  State.reset.phase = .idle ∧ State.reset.done = false ∧ State.reset.len = 0 ∧
  State.reset.busyOut = false ∧ State.reset.doneOut = false ∧ State.reset.lenOut = 0 ∧
  State.reset.portRequests = [] ∧ State.reset.endOfRun = false

/-- R160, R162: a reset overrides whatever else the step would do, and never accesses the buffer. -/
def Obligations.ResetOverridesEveryOtherRule : Prop :=
  ∀ (s : State) (start : Bool) (op : BitVec 1) (r : List HostMove),
    s.bench = none → s.inputs = .drive true start op :: r →
    ∃ t, step s = .next t ∧ t.phase = .idle ∧ t.done = false ∧ t.len = 0 ∧
      t.busyOut = false ∧ t.doneOut = false ∧ t.lenOut = 0 ∧ t.portRequests = [] ∧
      t.inputs = r ∧ t.cfg = s.cfg ∧
      (s.phase = .idle → t.buf = s.buf)

/-- R161 in the model's form (log 5): a reset in BUSY leaves every byte of BUF a free value. -/
def Obligations.ResetWhileBusyFreesTheBuffer : Prop :=
  ∀ (s : State) (start : Bool) (op : BitVec 1) (r : List HostMove),
    s.bench = none → s.phase = .busy → s.buf.wf = true → s.inputs = .drive true start op :: r →
    ∃ t, step s = .next t ∧ t.done = false ∧ t.len = 0 ∧
      ∀ a, a < s.cfg.capacity → t.buf.read a = Config.freeByte s.draws a

/-! Invariants. -/

/-- The state after reset is legal. -/
def Obligations.ResetStateIsLegal : Prop := State.reset.Legal

/-- Every step keeps the legal states: BUF canonical and in range, K within the units while BUSY, DONE clear while BUSY,
LEN a length some command returns (R21, R24, R27, R28, R121). -/
def Obligations.StepKeepsLegalStates : Prop :=
  ∀ s t : State, s.Legal → step s = .next t → t.Legal

/-- No step puts a datum on `bench`: no run meets a data-layout row as an instruction (R3, R57, R126; log 9). -/
def Obligations.StepNeverPresentsADatum : Prop :=
  ∀ s t : State, step s = .next t → t.bench = none

/-- R32: no step changes the configuration. -/
def Obligations.StepKeepsTheConfiguration : Prop :=
  ∀ s t : State, step s = .next t → t.cfg = s.cfg

/-- R116 as an invariant every step keeps: left alone by the host, CBUF in progress on `source` reads a unit that still
is the source's, and goes on to the next unit or, after the last, has completed on `source`. -/
def Obligations.CbufIsSafeInPlace : Prop :=
  ∀ (source : Memory) (s : State), s.CompressingFrom source → s.bench = none → s.move.leavesAlone = true →
    ∃ t, step s = .next t ∧
      t.eu = source.unit_at_expanded_offset s.k ∧
      (s.k + 1 < s.cfg.units → t.CompressingFrom source ∧ t.k = s.k + 1) ∧
      (s.k + 1 = s.cfg.units → t.CompressedFrom source)

/-- R117 as an invariant every step keeps: the same for XBUF.  In ascending order it would fail: the step on unit 0
writes over `BUF[9..11]`, the head of compressed unit 1. -/
def Obligations.XbufIsSafeInPlace : Prop :=
  (∀ (source : Memory) (s : State), s.ExpandingFrom source → s.bench = none → s.move.leavesAlone = true →
    ∃ t, step s = .next t ∧
      t.cu = source.unit_at_compressed_offset s.k ∧
      (0 < s.k → t.ExpandingFrom source ∧ t.k = s.k - 1) ∧
      (s.k = 0 → t.ExpandedFrom source)) ∧
  (∀ m : Memory, m.wf = true → ∀ j (h : j < 3),
    (m.expandAt 0).read (9 + j) = (unpackUnit (m.unit_at_compressed_offset 0))[9 + j]) ∧
  (∃ m : Memory, m.wf = true ∧ (m.expandAt 0).unit_at_compressed_offset 1 ≠ m.unit_at_compressed_offset 1)

/-! Whole commands. -/

/-- R118: from a `start` with `op = 0` in IDLE, one acceptance and N unit steps in ascending order end the run with
`LEN = 9N` and, at every unit, what separate buffers would hold; whatever the buffer holds. -/
def Obligations.CbufCommandResult : Prop :=
  ∀ (s : State) (r : List HostMove), s.bench = none → s.phase = .idle → s.buf.wf = true →
    s.inputs = .drive false true 0 :: r → (∀ m ∈ r.take s.cfg.units, m.leavesAlone = true) →
    (∀ j, j < s.cfg.units → ∃ t : State, Sys2Proof.core.run (j + 1) s = .next t ∧ t.phase = .busy ∧ t.k = j) ∧
    ∃ t : State, Sys2Proof.core.run (s.cfg.units + 1) s = .next t ∧
      t.endOfRun = true ∧ t.len = 9 * s.cfg.units ∧
      ∀ k, k < s.cfg.units → ∀ j (h : j < 9),
        t.buf.read (9 * k + j) = (packUnit (s.buf.unit_at_expanded_offset k))[j]

/-- R119: the same for XBUF, in descending order, with `LEN = C` and every byte of BUF determined. -/
def Obligations.XbufCommandResult : Prop :=
  ∀ (s : State) (r : List HostMove), s.bench = none → s.phase = .idle → s.buf.wf = true →
    s.inputs = .drive false true 1 :: r → (∀ m ∈ r.take s.cfg.units, m.leavesAlone = true) →
    (∀ j, j < s.cfg.units → ∃ t : State,
      Sys2Proof.core.run (j + 1) s = .next t ∧ t.phase = .busy ∧ t.k = s.cfg.units - 1 - j) ∧
    ∃ t : State, Sys2Proof.core.run (s.cfg.units + 1) s = .next t ∧
      t.endOfRun = true ∧ t.len = s.cfg.capacity ∧
      ∀ k, k < s.cfg.units → ∀ j (h : j < 12),
        t.buf.read (12 * k + j) = (unpackUnit (s.buf.unit_at_compressed_offset k))[j]

/-- R122: `CBUF ; XBUF` with no host write between: sentinel bytes become `dec2 (enc2 ·)`, payload bytes stay, and the
buffer comes back exactly where the sentinel precondition holds, whatever the trailing bytes became. -/
def Obligations.CbufThenXbufRestoresTheBuffer : Prop :=
  ∀ s : State, s.bench = none → s.phase = .idle → s.buf.wf = true →
    s.inputs = .drive false true 0 :: (quietFor s.cfg.units ++ [.drive false true 1]) →
    ∃ t : State, Sys2Proof.core.run (2 * (s.cfg.units + 1)) s = .next t ∧
      t.endOfRun = true ∧ t.len = s.cfg.capacity ∧
      (∀ a, a < s.cfg.capacity → t.buf.read a = canonicalByteOf s.buf a) ∧
      (s.SentinelsHold → ∀ a, a < s.cfg.capacity → t.buf.read a = s.buf.read a)

/-- R123: XBUF never reads an offset in `[9N, C)`, and `XBUF ; CBUF` with no host write between restores `[0, 9N)`
exactly, with no precondition. -/
def Obligations.XbufThenCbufRestoresTheCompressedBytes : Prop :=
  (∀ (n k : Nat), k < n → ∀ a ∈ readOffsets .xbuf k, a < 9 * n) ∧
  (∀ (n a : Nat), a < 9 * n → ∃ k, k < n ∧ a ∈ readOffsets .xbuf k) ∧
  ∀ s : State, s.bench = none → s.phase = .idle → s.buf.wf = true →
    s.inputs = .drive false true 1 :: (quietFor s.cfg.units ++ [.drive false true 0]) →
    ∃ t : State, Sys2Proof.core.run (2 * (s.cfg.units + 1)) s = .next t ∧
      t.endOfRun = true ∧ t.len = s.cfg.compressedLength ∧
      ∀ a, a < s.cfg.compressedLength → t.buf.read a = s.buf.read a

/-- R76, R164, R174 as host moves: the line `BUF[a..b] := bytes` of a host script fills those bytes of an idle
transcoder's buffer and changes nothing else, a line `read` changes nothing, and the line of a command, left alone,
ends in the end of a run with that command's length, the rest of the script still to come (logs 7, 17). -/
def Obligations.HostScriptRunsLineByLine : Prop :=
  ∀ (s : State) (r : List HostMove), s.bench = none → s.phase = .idle → s.buf.wf = true →
    (∀ a l, a + l.length ≤ s.cfg.capacity → s.inputs = (ScriptLine.fill a l).moves s.cfg ++ r →
      Sys2Proof.core.run l.length s = .next { s with inputs := r, buf := s.buf.memWrite a l }) ∧
    (∀ a n, a + n ≤ s.cfg.capacity → s.inputs = (ScriptLine.look a n).moves s.cfg ++ r →
      Sys2Proof.core.run n s = .next { s with inputs := r }) ∧
    (∀ c, s.inputs = (ScriptLine.command c).moves s.cfg ++ r →
      ∃ t : State, Sys2Proof.core.run (s.cfg.units + 1) s = .next t ∧
        t.endOfRun = true ∧ t.len = resultLength s.cfg c ∧ t.cfg = s.cfg ∧ t.inputs = r)

/-- R110, R111 as loops over the buffer: working in place gives what separate buffers give, and leaves the trailing
bytes alone (the reference sequencing of R120). -/
def Obligations.InPlaceLoopsEqualSeparateBuffers : Prop :=
  ∀ (c : Config) (m : Memory), m.wf = true →
    (∀ a, a < c.compressedLength → (compressBuffer c m).1.read a = compressedByteOf m a) ∧
    (∀ a, c.compressedLength ≤ a → (compressBuffer c m).1.read a = m.read a) ∧
    (∀ a, a < c.capacity → (expandBuffer c m).1.read a = expandedByteOf m a) ∧
    (compressBuffer c m).2 = 9 * c.units ∧ (expandBuffer c m).2 = 12 * c.units

/-- R166: the reverse of either order corrupts some buffer, for every N ≥ 2; and the offset `9k` a CBUF step writes first
lies inside the expanded unit `floor(3k/4)`, below `k`. -/
def Obligations.ReversedOrdersCorrupt : Prop :=
  ∀ n, 2 ≤ n →
    (∃ m : Memory, m.wf = true ∧ ∃ a, a < 12 * n ∧
      ((cbufOrder n).foldl Memory.expandAt m).read a ≠ expandedByteOf m a) ∧
    (∃ m : Memory, m.wf = true ∧ ∃ a, a < 9 * n ∧
      ((xbufOrder n).foldl Memory.compressAt m).read a ≠ compressedByteOf m a) ∧
    (∀ k, 1 ≤ k → 9 * k ∈ writeOffsets .cbuf k ∧ 9 * k ∈ readOffsets .cbuf (3 * k / 4) ∧ 3 * k / 4 < k)

/-! The memory port. -/

/-- R44, R127: the requests of a unit step are its reads then its writes, 21 in all, and serving them one byte at a time
gives the buffer the atomic step gives (where the step frees no trailing byte). -/
def Obligations.ByteRequestsReplayTheUnitStep : Prop :=
  ∀ s t : State, s.phase = .busy → exec (commandInstr s.opl) s = .next t →
    s.portRequests.map PortRequest.offset = readOffsets s.opl s.k ++ writeOffsets s.opl s.k ∧
    s.portRequests.length = 21 ∧
    (s.opl = .xbuf ∨ t.phase = .busy → t.buf = s.portRequests.foldl Memory.serve s.buf)

/-- R48: CBUF reads every offset of `[0, C)` and writes every offset of `[0, 9N)` exactly once, XBUF the other way round;
`21N` requests in all. -/
def Obligations.FootprintOfAWholeCommand : Prop :=
  ∀ n : Nat,
    (unitOrder .cbuf n).flatMap (readOffsets .cbuf) = List.range (12 * n) ∧
    (unitOrder .cbuf n).flatMap (writeOffsets .cbuf) = List.range (9 * n) ∧
    ((unitOrder .xbuf n).flatMap (readOffsets .xbuf)).Perm (List.range (9 * n)) ∧
    ((unitOrder .xbuf n).flatMap (writeOffsets .xbuf)).Perm (List.range (12 * n)) ∧
    (∀ c : Command, ((unitOrder c n).flatMap (readOffsets c)).length +
      ((unitOrder c n).flatMap (writeOffsets c)).length = 21 * n)

/-- R46: in a legal state every offset presented to the memory port is in `[0, C)`; with the largest offset each
command reads and writes. -/
def Obligations.PortOffsetsStayInTheBuffer : Prop :=
  (∀ s : State, s.Legal → ∀ q ∈ s.portRequests, q.offset < s.cfg.capacity) ∧
  (∀ n, 0 < n →
    (12 * n - 1 ∈ readOffsets .cbuf (n - 1) ∧ ∀ k, k < n → ∀ a ∈ readOffsets .cbuf k, a ≤ 12 * n - 1) ∧
    (9 * n - 1 ∈ writeOffsets .cbuf (n - 1) ∧ ∀ k, k < n → ∀ a ∈ writeOffsets .cbuf k, a ≤ 9 * n - 1) ∧
    (9 * n - 1 ∈ readOffsets .xbuf (n - 1) ∧ ∀ k, k < n → ∀ a ∈ readOffsets .xbuf k, a ≤ 9 * n - 1) ∧
    (12 * n - 1 ∈ writeOffsets .xbuf (n - 1) ∧ ∀ k, k < n → ∀ a ∈ writeOffsets .xbuf k, a ≤ 12 * n - 1))

/-! Hidden state. -/

/-- R31, R34: EU and CU always, OPL and K while IDLE, influence nothing the host can see, step after step. -/
def Obligations.HiddenStateIsUnobservable : Prop :=
  ∀ s t s' : State, s.SameButHidden t → step s = .next s' → ∃ t', step t = .next t' ∧ s'.SameButHidden t'
end

