-- ==== Sys2Proof/Laws/Bits.lean ====
section
/-! SUPPORT. The bits of every concatenation the model makes, and the slices of a concatenation: cited in place of
unfolding, since a width such as 2 + 8 + 8 is 18 only by evaluation. -/

namespace Sys2Proof.Machine

/-- A slice that lies in the low part of a concatenation. -/
theorem extract_low {n m start len : Nat} (a : BitVec n) (b : BitVec m) (h : start + len ≤ m) :
    (a ++ b).extractLsb' start len = b.extractLsb' start len := by
  apply BitVec.eq_of_getLsbD_eq
  intro i hi
  simp only [BitVec.getLsbD_append, BitVec.getLsbD_extractLsb', hi]
  rw [if_pos (by omega)]

/-- A slice that lies in the high part of a concatenation. -/
theorem extract_high {n m start len : Nat} (a : BitVec n) (b : BitVec m) (h : m ≤ start) :
    (a ++ b).extractLsb' start len = a.extractLsb' (start - m) len := by
  apply BitVec.eq_of_getLsbD_eq
  intro i hi
  simp only [BitVec.getLsbD_append, BitVec.getLsbD_extractLsb', hi]
  rw [if_neg (by omega), show start + i - m = start - m + i by omega]

theorem extract_all {n : Nat} (a : BitVec n) : a.extractLsb' 0 n = a := by
  apply BitVec.eq_of_getLsbD_eq
  intro i hi
  simp [hi]

/-- Adjacent slices join. -/
theorem extract_join {w n m start : Nat} (x : BitVec w) :
    x.extractLsb' (start + m) n ++ x.extractLsb' start m = x.extractLsb' start (n + m) := by
  apply BitVec.eq_of_getLsbD_eq
  intro i hi
  simp only [BitVec.getLsbD_append, BitVec.getLsbD_extractLsb']
  split
  · simp [*]
  · rw [show start + m + (i - m) = start + i by omega]
    simp [hi, show i - m < n by omega]

end Sys2Proof.Machine

namespace Sys2Proof

open Machine

theorem UnitField.bits_code (f : UnitField) : f.bits.extractLsb' 16 2 = f.code :=
  (extract_high (start := 16) (len := 2) f.code f.payload (by decide)).trans (extract_all _)

theorem UnitField.bits_payload (f : UnitField) : f.bits.extractLsb' 0 16 = f.payload :=
  (extract_low (start := 0) (len := 16) f.code f.payload (by decide)).trans (extract_all _)

/-- The bits of a field, the code above the payload. -/
theorem UnitField.getLsbD_bits (f : UnitField) (i : Nat) :
    f.bits.getLsbD i = if i < 16 then f.payload.getLsbD i else f.code.getLsbD (i - 16) :=
  BitVec.getLsbD_append

/-- The bits of a sample, byte 0 highest. -/
theorem Sample.getLsbD_bits (s : Sample) (i : Nat) :
    s.bits.getLsbD i = if i < 8 then s.byte2.getLsbD i
      else if i - 8 < 8 then s.byte1.getLsbD (i - 8) else s.byte0.getLsbD (i - 8 - 8) :=
  BitVec.getLsbD_append.trans (by rw [BitVec.getLsbD_append])

end Sys2Proof

namespace Sys2Proof.Machine

/-- The bits of a packed lane. -/
theorem getLsbD_lanePack (s : Sample) (i : Nat) :
    (lanePack s).getLsbD i = if i < 8 then s.byte2.getLsbD i
      else if i - 8 < 8 then s.byte1.getLsbD (i - 8) else (enc2 s.byte0).getLsbD (i - 8 - 8) :=
  BitVec.getLsbD_append.trans (by rw [BitVec.getLsbD_append])

/-- The bits of four fields laid end to end, field 0 highest. -/
theorem getLsbD_fields (f0 f1 f2 f3 : BitVec 18) (i : Nat) :
    (f0 ++ f1 ++ f2 ++ f3).getLsbD i = if i < 18 then f3.getLsbD i
      else if i - 18 < 18 then f2.getLsbD (i - 18)
      else if i - 18 - 18 < 18 then f1.getLsbD (i - 18 - 18) else f0.getLsbD (i - 18 - 18 - 18) := by
  rw [BitVec.getLsbD_append, BitVec.getLsbD_append, BitVec.getLsbD_append]

/-- The bits of a compressed unit's 72-bit number: byte 8 lowest (spec/20_memory.md R43). -/
theorem getLsbD_compressedWord (o : CompressedUnit) (i : Nat) (h : i < 72) :
    (compressedWord o).getLsbD i = (o[8 - i / 8]'(by omega)).getLsbD (i % 8) := by
  refine (show (compressedWord o).getLsbD i = _ from BitVec.getLsbD_append).trans ?_
  iterate 7 rw [BitVec.getLsbD_append]
  interval_cases i <;> rfl

/-- Byte `j` of the compressed unit of a 72-bit number is its slice (spec/30_encoding.md R70). -/
@[simp] theorem getElem_compressedBytes (w : BitVec 72) (j : Nat) (h : j < 9) :
    (compressedBytes w)[j] = w.extractLsb' (64 - 8 * j) 8 := by simp [compressedBytes]

end Sys2Proof.Machine
end

