-- ==== Sys2Proof/Laws/Memory.lean ====
section
/-! SUPPORT. What the operations over the buffer do, and that each keeps its canonical form. -/

namespace Sys2Proof.Machine

variable {m rest : Memory} {a x low lo n c draw : Nat} {d v : Byte} {l : List Byte}

@[simp] theorem Memory.read_nil : Memory.read [] x = blankByte := rfl

@[simp] theorem Memory.read_entry : Memory.read ((a, d) :: rest) x = if x = a then d else Memory.read rest x := rfl

theorem Memory.wfFrom_entry :
    Memory.wfFrom low ((a, d) :: rest) = true ↔ low ≤ a ∧ d ≠ blankByte ∧ Memory.wfFrom (a + 1) rest = true := by
  simp [Memory.wfFrom, and_assoc]

theorem Memory.wfFrom_mono (h : lo ≤ low) (hm : Memory.wfFrom low m = true) : Memory.wfFrom lo m = true := by
  cases m with
  | nil => rfl
  | cons cell rest =>
    obtain ⟨a, d⟩ := cell
    rw [Memory.wfFrom_entry] at hm ⊢
    exact ⟨by omega, hm.2⟩

theorem Memory.read_below (hm : Memory.wfFrom low m = true) (h : x < low) : m.read x = blankByte := by
  induction m generalizing low with
  | nil => rfl
  | cons cell rest ih =>
    obtain ⟨a, d⟩ := cell
    rw [Memory.wfFrom_entry] at hm
    rw [Memory.read_entry, if_neg (by omega), ih hm.2.2 (by omega)]

theorem Memory.read_cons_self (h : Memory.wfFrom (a + 1) rest = true) : (Memory.cons a v rest).read a = v := by
  unfold Memory.cons
  split
  · rename_i hv; rw [Memory.read_below h (by omega), hv]
  · simp

theorem Memory.read_cons_other (h : x ≠ a) : (Memory.cons a v rest).read x = rest.read x := by
  unfold Memory.cons
  split
  · rfl
  · simp [h]

theorem Memory.wfFrom_cons (hl : low ≤ a) (h : Memory.wfFrom (a + 1) rest = true) :
    Memory.wfFrom low (Memory.cons a v rest) = true := by
  unfold Memory.cons
  split
  · exact Memory.wfFrom_mono (by omega) h
  · rename_i hv; exact Memory.wfFrom_entry.2 ⟨hl, hv, h⟩

theorem Memory.below_entry : Memory.below c ((a, d) :: rest) = true ↔ a < c ∧ Memory.below c rest = true := by
  simp [Memory.below]

theorem Memory.below_cons (ha : a < c) (h : Memory.below c rest = true) :
    Memory.below c (Memory.cons a v rest) = true := by
  unfold Memory.cons
  split
  · exact h
  · exact Memory.below_entry.2 ⟨ha, h⟩

/-- A write changes only the addressed byte (spec/20_memory.md R47), whatever the list holds. -/
theorem Memory.read_write_other (h : x ≠ a) : (m.write a v).read x = m.read x := by
  induction m with
  | nil => exact Memory.read_cons_other h
  | cons cell rest ih =>
    obtain ⟨b, d⟩ := cell
    simp only [Memory.write]
    split
    · simp [ih]
    · split
      · rename_i hb; subst hb; simp [Memory.read_cons_other h, h]
      · rw [Memory.read_cons_other h]

theorem Memory.read_write_self_from (hm : Memory.wfFrom low m = true) : (m.write a v).read a = v := by
  induction m generalizing low with
  | nil => exact Memory.read_cons_self rfl
  | cons cell rest ih =>
    obtain ⟨b, d⟩ := cell
    rw [Memory.wfFrom_entry] at hm
    simp only [Memory.write]
    split
    · rw [Memory.read_entry, if_neg (by omega), ih hm.2.2]
    · split
      · rename_i hb; subst hb; exact Memory.read_cons_self hm.2.2
      · exact Memory.read_cons_self (Memory.wfFrom_entry.2 ⟨by omega, hm.2⟩)

/-- Read after write (spec/20_memory.md R44, R52). -/
theorem Memory.read_write (hm : m.wf = true) : (m.write a v).read x = if x = a then v else m.read x := by
  split
  · rename_i h; subst h; exact Memory.read_write_self_from hm
  · rename_i h; exact Memory.read_write_other h

theorem Memory.wfFrom_write (hm : Memory.wfFrom low m = true) (ha : low ≤ a) :
    Memory.wfFrom low (m.write a v) = true := by
  induction m generalizing low with
  | nil => exact Memory.wfFrom_cons ha rfl
  | cons cell rest ih =>
    obtain ⟨b, d⟩ := cell
    rw [Memory.wfFrom_entry] at hm
    simp only [Memory.write]
    split
    · exact Memory.wfFrom_entry.2 ⟨hm.1, hm.2.1, ih hm.2.2 (by omega)⟩
    · split
      · rename_i hb; subst hb; exact Memory.wfFrom_cons ha hm.2.2
      · exact Memory.wfFrom_cons ha (Memory.wfFrom_entry.2 ⟨by omega, hm.2⟩)

theorem Memory.wf_write (hm : m.wf = true) : (m.write a v).wf = true := Memory.wfFrom_write hm (Nat.zero_le _)

theorem Memory.below_write (hm : m.below c = true) (ha : a < c) : (m.write a v).below c = true := by
  induction m with
  | nil => exact Memory.below_cons ha rfl
  | cons cell rest ih =>
    obtain ⟨b, d⟩ := cell
    rw [Memory.below_entry] at hm
    simp only [Memory.write]
    split
    · exact Memory.below_entry.2 ⟨hm.1, ih hm.2⟩
    · split
      · exact Memory.below_cons ha hm.2
      · exact Memory.below_cons ha (Memory.below_entry.2 hm)

@[simp] theorem Memory.memWrite_nil : m.memWrite a [] = m := by cases m <;> rfl

@[simp] theorem Memory.memWrite_cons : m.memWrite a (v :: l) = (m.write a v).memWrite (a + 1) l := by cases m <;> rfl

theorem Memory.wf_memWrite (hm : m.wf = true) : (m.memWrite a l).wf = true := by
  induction l generalizing m a with
  | nil => simpa using hm
  | cons v l ih => rw [Memory.memWrite_cons]; exact ih (Memory.wf_write hm)

theorem Memory.below_memWrite (hm : m.below c = true) (ha : a + l.length ≤ c) : (m.memWrite a l).below c = true := by
  induction l generalizing m a with
  | nil => simpa using hm
  | cons v l ih =>
    rw [List.length_cons] at ha
    rw [Memory.memWrite_cons]
    exact ih (Memory.below_write hm (by omega)) (by omega)

/-- `MemWrite` changes only the bytes of its range, whatever the list holds. -/
theorem Memory.read_memWrite_other (h : x < a ∨ a + l.length ≤ x) : (m.memWrite a l).read x = m.read x := by
  induction l generalizing m a with
  | nil => simp
  | cons v l ih =>
    rw [List.length_cons] at h
    rw [Memory.memWrite_cons, ih (by omega), Memory.read_write_other (by omega)]

/-- `MemWrite` puts byte `i` of its value at offset `a + i` (spec/00_scope.md R14). -/
theorem Memory.read_memWrite (hm : m.wf = true) (i : Nat) (hi : i < l.length) :
    (m.memWrite a l).read (a + i) = l[i] := by
  induction l generalizing m a i with
  | nil => simp at hi
  | cons v l ih =>
    rw [Memory.memWrite_cons]
    cases i with
    | zero => rw [Memory.read_memWrite_other (by omega), Nat.add_zero, Memory.read_write hm]; simp
    | succ i =>
      have := ih (m := m.write a v) (a := a + 1) (Memory.wf_write hm) i (by simpa using hi)
      rw [← Nat.add_right_comm, Nat.add_assoc] at this
      simpa using this

@[simp] theorem Memory.getElem_memRead (h : x < n) : (m.memRead a n)[x] = m.read (a + x) := by
  simp [Memory.memRead]

@[simp] theorem freeBytes_length : (freeBytes draw a n).length = n := by simp [freeBytes]

theorem Memory.wf_forget (hm : m.wf = true) : (m.forget draw a n).wf = true := Memory.wf_memWrite hm

theorem Memory.below_forget (hm : m.below c = true) (h : a + n ≤ c) : (m.forget draw a n).below c = true :=
  Memory.below_memWrite hm (by simpa using h)

theorem Memory.read_forget_other (h : x < a ∨ a + n ≤ x) : (m.forget draw a n).read x = m.read x :=
  Memory.read_memWrite_other (by simpa using h)

/-- A byte the spec leaves at "any value" reads as the free byte of its draw. -/
theorem Memory.read_forget (hm : m.wf = true) (h : x < n) :
    (m.forget draw a n).read (a + x) = Config.freeByte draw (a + x) := by
  unfold Memory.forget
  rw [Memory.read_memWrite hm x (by simpa using h)]
  simp [freeBytes]

end Sys2Proof.Machine
end

