-- ==== Sys2Proof/Laws/State.lean ====
section
/-! SUPPORT. Each named update of the state, field by field: true by rfl, so that no proof unfolds a record update. -/

namespace Sys2Proof.Machine

variable (s : State)

@[simp] theorem State.markAccepted_phase (c : Command) : (s.markAccepted c).phase = .busy := rfl
@[simp] theorem State.markAccepted_opl (c : Command) : (s.markAccepted c).opl = c := rfl
@[simp] theorem State.markAccepted_k (c : Command) : (s.markAccepted c).k = s.k := rfl
@[simp] theorem State.markAccepted_eu (c : Command) : (s.markAccepted c).eu = s.eu := rfl
@[simp] theorem State.markAccepted_cu (c : Command) : (s.markAccepted c).cu = s.cu := rfl
@[simp] theorem State.markAccepted_len (c : Command) : (s.markAccepted c).len = s.len := rfl
@[simp] theorem State.markAccepted_done (c : Command) : (s.markAccepted c).done = false := rfl
@[simp] theorem State.markAccepted_buf (c : Command) : (s.markAccepted c).buf = s.buf := rfl
@[simp] theorem State.markAccepted_cfg (c : Command) : (s.markAccepted c).cfg = s.cfg := rfl
@[simp] theorem State.markAccepted_inputs (c : Command) : (s.markAccepted c).inputs = s.inputs := rfl
@[simp] theorem State.markAccepted_bench (c : Command) : (s.markAccepted c).bench = s.bench := rfl
@[simp] theorem State.markAccepted_lane (c : Command) : (s.markAccepted c).lane = s.lane := rfl
@[simp] theorem State.markAccepted_draws (c : Command) : (s.markAccepted c).draws = s.draws := rfl

@[simp] theorem State.markCompleted_phase (l : Nat) : (s.markCompleted l).phase = .idle := rfl
@[simp] theorem State.markCompleted_opl (l : Nat) : (s.markCompleted l).opl = s.opl := rfl
@[simp] theorem State.markCompleted_k (l : Nat) : (s.markCompleted l).k = s.k := rfl
@[simp] theorem State.markCompleted_eu (l : Nat) : (s.markCompleted l).eu = s.eu := rfl
@[simp] theorem State.markCompleted_cu (l : Nat) : (s.markCompleted l).cu = s.cu := rfl
@[simp] theorem State.markCompleted_len (l : Nat) : (s.markCompleted l).len = l := rfl
@[simp] theorem State.markCompleted_done (l : Nat) : (s.markCompleted l).done = true := rfl
@[simp] theorem State.markCompleted_buf (l : Nat) : (s.markCompleted l).buf = s.buf := rfl
@[simp] theorem State.markCompleted_cfg (l : Nat) : (s.markCompleted l).cfg = s.cfg := rfl
@[simp] theorem State.markCompleted_inputs (l : Nat) : (s.markCompleted l).inputs = s.inputs := rfl
@[simp] theorem State.markCompleted_bench (l : Nat) : (s.markCompleted l).bench = s.bench := rfl
@[simp] theorem State.markCompleted_lane (l : Nat) : (s.markCompleted l).lane = s.lane := rfl
@[simp] theorem State.markCompleted_draws (l : Nat) : (s.markCompleted l).draws = s.draws := rfl

@[simp] theorem State.markReset_phase : s.markReset.phase = .idle := rfl
@[simp] theorem State.markReset_opl : s.markReset.opl = s.opl := rfl
@[simp] theorem State.markReset_k : s.markReset.k = s.k := rfl
@[simp] theorem State.markReset_eu : s.markReset.eu = s.eu := rfl
@[simp] theorem State.markReset_cu : s.markReset.cu = s.cu := rfl
@[simp] theorem State.markReset_len : s.markReset.len = 0 := rfl
@[simp] theorem State.markReset_done : s.markReset.done = false := rfl
@[simp] theorem State.markReset_buf : s.markReset.buf = s.buf := rfl
@[simp] theorem State.markReset_cfg : s.markReset.cfg = s.cfg := rfl
@[simp] theorem State.markReset_inputs : s.markReset.inputs = s.inputs := rfl
@[simp] theorem State.markReset_bench : s.markReset.bench = s.bench := rfl
@[simp] theorem State.markReset_lane : s.markReset.lane = s.lane := rfl
@[simp] theorem State.markReset_draws : s.markReset.draws = s.draws := rfl

@[simp] theorem State.setIndex_phase (i : Nat) : (s.setIndex i).phase = s.phase := rfl
@[simp] theorem State.setIndex_opl (i : Nat) : (s.setIndex i).opl = s.opl := rfl
@[simp] theorem State.setIndex_k (i : Nat) : (s.setIndex i).k = i := rfl
@[simp] theorem State.setIndex_eu (i : Nat) : (s.setIndex i).eu = s.eu := rfl
@[simp] theorem State.setIndex_cu (i : Nat) : (s.setIndex i).cu = s.cu := rfl
@[simp] theorem State.setIndex_len (i : Nat) : (s.setIndex i).len = s.len := rfl
@[simp] theorem State.setIndex_done (i : Nat) : (s.setIndex i).done = s.done := rfl
@[simp] theorem State.setIndex_buf (i : Nat) : (s.setIndex i).buf = s.buf := rfl
@[simp] theorem State.setIndex_cfg (i : Nat) : (s.setIndex i).cfg = s.cfg := rfl
@[simp] theorem State.setIndex_inputs (i : Nat) : (s.setIndex i).inputs = s.inputs := rfl
@[simp] theorem State.setIndex_bench (i : Nat) : (s.setIndex i).bench = s.bench := rfl
@[simp] theorem State.setIndex_lane (i : Nat) : (s.setIndex i).lane = s.lane := rfl
@[simp] theorem State.setIndex_draws (i : Nat) : (s.setIndex i).draws = s.draws := rfl

@[simp] theorem State.setStaging_phase (u : ExpandedUnit) (o : CompressedUnit) : (s.setStaging u o).phase = s.phase := rfl
@[simp] theorem State.setStaging_opl (u : ExpandedUnit) (o : CompressedUnit) : (s.setStaging u o).opl = s.opl := rfl
@[simp] theorem State.setStaging_k (u : ExpandedUnit) (o : CompressedUnit) : (s.setStaging u o).k = s.k := rfl
@[simp] theorem State.setStaging_eu (u : ExpandedUnit) (o : CompressedUnit) : (s.setStaging u o).eu = u := rfl
@[simp] theorem State.setStaging_cu (u : ExpandedUnit) (o : CompressedUnit) : (s.setStaging u o).cu = o := rfl
@[simp] theorem State.setStaging_len (u : ExpandedUnit) (o : CompressedUnit) : (s.setStaging u o).len = s.len := rfl
@[simp] theorem State.setStaging_done (u : ExpandedUnit) (o : CompressedUnit) : (s.setStaging u o).done = s.done := rfl
@[simp] theorem State.setStaging_buf (u : ExpandedUnit) (o : CompressedUnit) : (s.setStaging u o).buf = s.buf := rfl
@[simp] theorem State.setStaging_cfg (u : ExpandedUnit) (o : CompressedUnit) : (s.setStaging u o).cfg = s.cfg := rfl
@[simp] theorem State.setStaging_inputs (u : ExpandedUnit) (o : CompressedUnit) : (s.setStaging u o).inputs = s.inputs := rfl
@[simp] theorem State.setStaging_bench (u : ExpandedUnit) (o : CompressedUnit) : (s.setStaging u o).bench = s.bench := rfl
@[simp] theorem State.setStaging_lane (u : ExpandedUnit) (o : CompressedUnit) : (s.setStaging u o).lane = s.lane := rfl
@[simp] theorem State.setStaging_draws (u : ExpandedUnit) (o : CompressedUnit) : (s.setStaging u o).draws = s.draws := rfl

@[simp] theorem State.setBuf_phase (m : Memory) : (s.setBuf m).phase = s.phase := rfl
@[simp] theorem State.setBuf_opl (m : Memory) : (s.setBuf m).opl = s.opl := rfl
@[simp] theorem State.setBuf_k (m : Memory) : (s.setBuf m).k = s.k := rfl
@[simp] theorem State.setBuf_eu (m : Memory) : (s.setBuf m).eu = s.eu := rfl
@[simp] theorem State.setBuf_cu (m : Memory) : (s.setBuf m).cu = s.cu := rfl
@[simp] theorem State.setBuf_len (m : Memory) : (s.setBuf m).len = s.len := rfl
@[simp] theorem State.setBuf_done (m : Memory) : (s.setBuf m).done = s.done := rfl
@[simp] theorem State.setBuf_buf (m : Memory) : (s.setBuf m).buf = m := rfl
@[simp] theorem State.setBuf_cfg (m : Memory) : (s.setBuf m).cfg = s.cfg := rfl
@[simp] theorem State.setBuf_inputs (m : Memory) : (s.setBuf m).inputs = s.inputs := rfl
@[simp] theorem State.setBuf_bench (m : Memory) : (s.setBuf m).bench = s.bench := rfl
@[simp] theorem State.setBuf_lane (m : Memory) : (s.setBuf m).lane = s.lane := rfl
@[simp] theorem State.setBuf_draws (m : Memory) : (s.setBuf m).draws = s.draws := rfl

@[simp] theorem State.setLane_phase (r : LaneResult) : (s.setLane r).phase = s.phase := rfl
@[simp] theorem State.setLane_opl (r : LaneResult) : (s.setLane r).opl = s.opl := rfl
@[simp] theorem State.setLane_k (r : LaneResult) : (s.setLane r).k = s.k := rfl
@[simp] theorem State.setLane_eu (r : LaneResult) : (s.setLane r).eu = s.eu := rfl
@[simp] theorem State.setLane_cu (r : LaneResult) : (s.setLane r).cu = s.cu := rfl
@[simp] theorem State.setLane_len (r : LaneResult) : (s.setLane r).len = s.len := rfl
@[simp] theorem State.setLane_done (r : LaneResult) : (s.setLane r).done = s.done := rfl
@[simp] theorem State.setLane_buf (r : LaneResult) : (s.setLane r).buf = s.buf := rfl
@[simp] theorem State.setLane_cfg (r : LaneResult) : (s.setLane r).cfg = s.cfg := rfl
@[simp] theorem State.setLane_inputs (r : LaneResult) : (s.setLane r).inputs = s.inputs := rfl
@[simp] theorem State.setLane_bench (r : LaneResult) : (s.setLane r).bench = s.bench := rfl
@[simp] theorem State.setLane_lane (r : LaneResult) : (s.setLane r).lane = some r := rfl
@[simp] theorem State.setLane_draws (r : LaneResult) : (s.setLane r).draws = s.draws := rfl

@[simp] theorem State.forgetBuf_phase (a n : Nat) : (s.forgetBuf a n).phase = s.phase := rfl
@[simp] theorem State.forgetBuf_opl (a n : Nat) : (s.forgetBuf a n).opl = s.opl := rfl
@[simp] theorem State.forgetBuf_k (a n : Nat) : (s.forgetBuf a n).k = s.k := rfl
@[simp] theorem State.forgetBuf_eu (a n : Nat) : (s.forgetBuf a n).eu = s.eu := rfl
@[simp] theorem State.forgetBuf_cu (a n : Nat) : (s.forgetBuf a n).cu = s.cu := rfl
@[simp] theorem State.forgetBuf_len (a n : Nat) : (s.forgetBuf a n).len = s.len := rfl
@[simp] theorem State.forgetBuf_done (a n : Nat) : (s.forgetBuf a n).done = s.done := rfl
@[simp] theorem State.forgetBuf_buf (a n : Nat) : (s.forgetBuf a n).buf = s.buf.forget s.draws a n := rfl
@[simp] theorem State.forgetBuf_cfg (a n : Nat) : (s.forgetBuf a n).cfg = s.cfg := rfl
@[simp] theorem State.forgetBuf_inputs (a n : Nat) : (s.forgetBuf a n).inputs = s.inputs := rfl
@[simp] theorem State.forgetBuf_bench (a n : Nat) : (s.forgetBuf a n).bench = s.bench := rfl
@[simp] theorem State.forgetBuf_lane (a n : Nat) : (s.forgetBuf a n).lane = s.lane := rfl
@[simp] theorem State.forgetBuf_draws (a n : Nat) : (s.forgetBuf a n).draws = s.draws := rfl

@[simp] theorem State.forgetSequencer_phase : s.forgetSequencer.phase = s.phase := rfl
@[simp] theorem State.forgetSequencer_opl : s.forgetSequencer.opl = Config.freeCommand s.draws := rfl
@[simp] theorem State.forgetSequencer_k : s.forgetSequencer.k = Config.freeIndex s.draws := rfl
@[simp] theorem State.forgetSequencer_eu : s.forgetSequencer.eu = s.eu := rfl
@[simp] theorem State.forgetSequencer_cu : s.forgetSequencer.cu = s.cu := rfl
@[simp] theorem State.forgetSequencer_len : s.forgetSequencer.len = s.len := rfl
@[simp] theorem State.forgetSequencer_done : s.forgetSequencer.done = s.done := rfl
@[simp] theorem State.forgetSequencer_buf : s.forgetSequencer.buf = s.buf := rfl
@[simp] theorem State.forgetSequencer_cfg : s.forgetSequencer.cfg = s.cfg := rfl
@[simp] theorem State.forgetSequencer_inputs : s.forgetSequencer.inputs = s.inputs := rfl
@[simp] theorem State.forgetSequencer_bench : s.forgetSequencer.bench = s.bench := rfl
@[simp] theorem State.forgetSequencer_lane : s.forgetSequencer.lane = s.lane := rfl
@[simp] theorem State.forgetSequencer_draws : s.forgetSequencer.draws = s.draws := rfl

@[simp] theorem State.advanceDraws_phase (n : Nat) : (s.advanceDraws n).phase = s.phase := rfl
@[simp] theorem State.advanceDraws_opl (n : Nat) : (s.advanceDraws n).opl = s.opl := rfl
@[simp] theorem State.advanceDraws_k (n : Nat) : (s.advanceDraws n).k = s.k := rfl
@[simp] theorem State.advanceDraws_eu (n : Nat) : (s.advanceDraws n).eu = s.eu := rfl
@[simp] theorem State.advanceDraws_cu (n : Nat) : (s.advanceDraws n).cu = s.cu := rfl
@[simp] theorem State.advanceDraws_len (n : Nat) : (s.advanceDraws n).len = s.len := rfl
@[simp] theorem State.advanceDraws_done (n : Nat) : (s.advanceDraws n).done = s.done := rfl
@[simp] theorem State.advanceDraws_buf (n : Nat) : (s.advanceDraws n).buf = s.buf := rfl
@[simp] theorem State.advanceDraws_cfg (n : Nat) : (s.advanceDraws n).cfg = s.cfg := rfl
@[simp] theorem State.advanceDraws_inputs (n : Nat) : (s.advanceDraws n).inputs = s.inputs := rfl
@[simp] theorem State.advanceDraws_bench (n : Nat) : (s.advanceDraws n).bench = s.bench := rfl
@[simp] theorem State.advanceDraws_lane (n : Nat) : (s.advanceDraws n).lane = s.lane := rfl
@[simp] theorem State.advanceDraws_draws (n : Nat) : (s.advanceDraws n).draws = s.draws + n := rfl

@[simp] theorem State.forgetStaging_eu :
    s.forgetStaging.eu = Vector.ofFn fun j => Config.freeByte (s.draws + 1) j.val := rfl
@[simp] theorem State.forgetStaging_cu :
    s.forgetStaging.cu = Vector.ofFn fun j => Config.freeByte (s.draws + 2) j.val := rfl
@[simp] theorem State.forgetStaging_phase : s.forgetStaging.phase = s.phase := rfl
@[simp] theorem State.forgetStaging_opl : s.forgetStaging.opl = s.opl := rfl
@[simp] theorem State.forgetStaging_k : s.forgetStaging.k = s.k := rfl
@[simp] theorem State.forgetStaging_len : s.forgetStaging.len = s.len := rfl
@[simp] theorem State.forgetStaging_done : s.forgetStaging.done = s.done := rfl
@[simp] theorem State.forgetStaging_buf : s.forgetStaging.buf = s.buf := rfl
@[simp] theorem State.forgetStaging_cfg : s.forgetStaging.cfg = s.cfg := rfl
@[simp] theorem State.forgetStaging_inputs : s.forgetStaging.inputs = s.inputs := rfl
@[simp] theorem State.forgetStaging_bench : s.forgetStaging.bench = s.bench := rfl
@[simp] theorem State.forgetStaging_lane : s.forgetStaging.lane = s.lane := rfl
@[simp] theorem State.forgetStaging_draws : s.forgetStaging.draws = s.draws := rfl

@[simp] theorem State.sampled_phase : s.sampled.phase = s.phase := by unfold State.sampled; split <;> rfl
@[simp] theorem State.sampled_opl : s.sampled.opl = s.opl := by unfold State.sampled; split <;> rfl
@[simp] theorem State.sampled_k : s.sampled.k = s.k := by unfold State.sampled; split <;> rfl
@[simp] theorem State.sampled_eu : s.sampled.eu = s.eu := by unfold State.sampled; split <;> rfl
@[simp] theorem State.sampled_cu : s.sampled.cu = s.cu := by unfold State.sampled; split <;> rfl
@[simp] theorem State.sampled_len : s.sampled.len = s.len := by unfold State.sampled; split <;> rfl
@[simp] theorem State.sampled_done : s.sampled.done = s.done := by unfold State.sampled; split <;> rfl
@[simp] theorem State.sampled_buf : s.sampled.buf = s.buf := by unfold State.sampled; split <;> rfl
@[simp] theorem State.sampled_cfg : s.sampled.cfg = s.cfg := by unfold State.sampled; split <;> rfl
@[simp] theorem State.sampled_lane : s.sampled.lane = s.lane := by unfold State.sampled; split <;> rfl
@[simp] theorem State.sampled_draws : s.sampled.draws = s.draws := by unfold State.sampled; split <;> rfl
@[simp] theorem State.sampled_bench : s.sampled.bench = none := by
  unfold State.sampled; split
  · rfl
  · assumption

variable {s}

theorem State.sampled_inputs (h : s.bench = none) : s.sampled.inputs = s.inputs.tail := by simp [State.sampled, h]

theorem State.sampled_datum {d : Datum} (h : s.bench = some d) : s.sampled = { s with bench := none } := by
  simp [State.sampled, h]

theorem State.sampled_ports (h : s.bench = none) : s.sampled = { s with inputs := s.inputs.tail } := by
  simp [State.sampled, h]

end Sys2Proof.Machine
end

