-- ==== Sys2Proof/Laws/Ops.lean ====
section
/-! SUPPORT. What each shared operation over the registers can do, said once. -/

namespace Sys2Proof

theorem Config.capacity_eq (c : Config) : c.capacity = 12 * c.units := by
  obtain ⟨_, n, rfl⟩ := c
  simp [Config.units]

/-- The empty buffer is the one without a unit. -/
theorem Config.isEmpty_iff (c : Config) : c.isEmpty = true ↔ c.units = 0 := by
  have := c.capacity_eq
  simp only [Config.isEmpty, beq_iff_eq]
  omega

theorem Config.isEmpty_false {c : Config} (h : 0 < c.units) : c.isEmpty = false :=
  Bool.eq_false_iff.2 fun e => by have := c.isEmpty_iff.1 e; omega

theorem Config.compressedLength_eq (c : Config) : c.compressedLength = 9 * c.units := rfl

theorem Config.compressedLength_le (c : Config) : c.compressedLength ≤ c.capacity := by
  rw [Config.capacity_eq, Config.compressedLength_eq]; omega

end Sys2Proof

namespace Sys2Proof.Machine

variable {s t : State} {m : Memory} {a k : Nat} {c : Config}

theorem Memory.wf_compressAt (h : m.wf = true) : (m.compressAt k).wf = true := Memory.wf_memWrite h

theorem Memory.wf_expandAt (h : m.wf = true) : (m.expandAt k).wf = true := Memory.wf_memWrite h

/-- A CBUF unit step writes `[9k, 9k + 9)` and nothing else. -/
theorem Memory.read_compressAt_other (h : a < 9 * k ∨ 9 * k + 9 ≤ a) : (m.compressAt k).read a = m.read a :=
  Memory.read_memWrite_other (by simpa using h)

/-- An XBUF unit step writes `[12k, 12k + 12)` and nothing else. -/
theorem Memory.read_expandAt_other (h : a < 12 * k ∨ 12 * k + 12 ≤ a) : (m.expandAt k).read a = m.read a :=
  Memory.read_memWrite_other (by simpa using h)

theorem Memory.read_compressAt (h : m.wf = true) (j : Nat) (hj : j < 9) :
    (m.compressAt k).read (9 * k + j) = (packUnit (m.unit_at_expanded_offset k))[j] := by
  unfold Memory.compressAt
  rw [Memory.read_memWrite h j (by simpa using hj)]
  simp

theorem Memory.read_expandAt (h : m.wf = true) (j : Nat) (hj : j < 12) :
    (m.expandAt k).read (12 * k + j) = (unpackUnit (m.unit_at_compressed_offset k))[j] := by
  unfold Memory.expandAt
  rw [Memory.read_memWrite h j (by simpa using hj)]
  simp

theorem Memory.below_compressAt {c : Nat} (h : m.below c = true) (hk : 9 * k + 9 ≤ c) : (m.compressAt k).below c = true :=
  Memory.below_memWrite h (by simpa using hk)

theorem Memory.below_expandAt {c : Nat} (h : m.below c = true) (hk : 12 * k + 12 ≤ c) : (m.expandAt k).below c = true :=
  Memory.below_memWrite h (by simpa using hk)

/-- A unit reads as it did where the buffer does. -/
theorem Memory.unit_at_expanded_offset_congr {m' : Memory} (h : ∀ a, 12 * k ≤ a → a < 12 * k + 12 → m.read a = m'.read a) :
    m.unit_at_expanded_offset k = m'.unit_at_expanded_offset k := by
  unfold Memory.unit_at_expanded_offset
  apply Vector.ext
  intro i hi
  simp only [Memory.getElem_memRead]
  rw [h (12 * k + i) (by omega) (by omega)]

theorem Memory.unit_at_compressed_offset_congr {m' : Memory} (h : ∀ a, 9 * k ≤ a → a < 9 * k + 9 → m.read a = m'.read a) :
    m.unit_at_compressed_offset k = m'.unit_at_compressed_offset k := by
  unfold Memory.unit_at_compressed_offset
  apply Vector.ext
  intro i hi
  simp only [Memory.getElem_memRead]
  rw [h (9 * k + i) (by omega) (by omega)]

/-- Completion of CBUF: every field it sets, and what it does to BUF. -/
theorem State.completeCbuf_eq : s.completeCbuf =
    { s with
      phase := .idle, opl := Config.freeCommand s.draws, k := Config.freeIndex s.draws
      len := s.cfg.compressedLength, done := true
      buf := s.buf.forget s.draws s.cfg.compressedLength (s.cfg.capacity - s.cfg.compressedLength)
      draws := s.draws + 1 } := rfl

/-- Completion of XBUF: every field it sets. -/
theorem State.completeXbuf_eq : s.completeXbuf =
    { s with
      phase := .idle, opl := Config.freeCommand s.draws, k := Config.freeIndex s.draws
      len := s.cfg.capacity, done := true, draws := s.draws + 1 } := rfl

/-- Acceptance of CBUF where there is a unit. -/
theorem State.acceptCbuf_units (h : 0 < s.cfg.units) :
    s.acceptCbuf = { s with phase := .busy, opl := .cbuf, k := 0, done := false } := by
  simp [State.acceptCbuf, Config.isEmpty_false h, State.markAccepted, State.setIndex, firstIndex]

/-- Acceptance of XBUF where there is a unit. -/
theorem State.acceptXbuf_units (h : 0 < s.cfg.units) :
    s.acceptXbuf = { s with phase := .busy, opl := .xbuf, k := s.cfg.units - 1, done := false } := by
  simp [State.acceptXbuf, Config.isEmpty_false h, State.markAccepted, State.setIndex, firstIndex]

/-- Acceptance of either command where there is none: completion follows at once. -/
theorem State.acceptCbuf_empty (h : s.cfg.units = 0) :
    s.acceptCbuf = (((s.markAccepted .cbuf).setIndex 0).completeCbuf) := by
  simp [State.acceptCbuf, s.cfg.isEmpty_iff.2 h, firstIndex]

theorem State.acceptXbuf_empty (h : s.cfg.units = 0) :
    s.acceptXbuf = (((s.markAccepted .xbuf).setIndex 0).completeXbuf) := by
  simp [State.acceptXbuf, s.cfg.isEmpty_iff.2 h, firstIndex, h]

/-- The data movement of a CBUF unit step: every field it sets. -/
theorem State.compressUnitAtK_eq : s.compressUnitAtK =
    { s with
      eu := s.buf.unit_at_expanded_offset s.k, cu := packUnit (s.buf.unit_at_expanded_offset s.k)
      buf := s.buf.compressAt s.k } := rfl

/-- The data movement of an XBUF unit step: every field it sets. -/
theorem State.expandUnitAtK_eq : s.expandUnitAtK =
    { s with
      cu := s.buf.unit_at_compressed_offset s.k, eu := unpackUnit (s.buf.unit_at_compressed_offset s.k)
      buf := s.buf.expandAt s.k } := rfl

/-- What `execCbuf` answers, by phase and latched command. -/
theorem execCbuf_eq (s : State) : execCbuf s = .next (
    match s.phase, s.opl with
    | .idle, _ => s.acceptCbuf
    | .busy, .cbuf => s.cbufUnitStep
    | .busy, .xbuf => s) := by
  unfold execCbuf
  cases s.phase <;> cases s.opl <;> rfl

/-- What `execXbuf` answers, by phase and latched command. -/
theorem execXbuf_eq (s : State) : execXbuf s = .next (
    match s.phase, s.opl with
    | .idle, _ => s.acceptXbuf
    | .busy, .cbuf => s
    | .busy, .xbuf => s.xbufUnitStep) := by
  unfold execXbuf
  cases s.phase <;> cases s.opl <;> rfl

/-- Everything CBUF can do. -/
theorem execCbuf_cases (h : execCbuf s = .next t) :
    (s.phase = .idle ∧ 0 < s.cfg.units ∧ t = { s with phase := .busy, opl := .cbuf, k := 0, done := false }) ∨
    (s.phase = .idle ∧ s.cfg.units = 0 ∧ t = ((s.markAccepted .cbuf).setIndex 0).completeCbuf) ∨
    (s.phase = .busy ∧ s.opl = .cbuf ∧ s.k = s.cfg.units - 1 ∧ t = s.compressUnitAtK.completeCbuf) ∨
    (s.phase = .busy ∧ s.opl = .cbuf ∧ s.k ≠ s.cfg.units - 1 ∧ t = s.compressUnitAtK.setIndex (s.k + 1)) ∨
    (s.phase = .busy ∧ s.opl = .xbuf ∧ t = s) := by
  rw [execCbuf_eq] at h
  injection h with h
  subst h
  cases hp : s.phase with
  | idle =>
    rcases Nat.eq_zero_or_pos s.cfg.units with hu | hu
    · simp [hu, State.acceptCbuf_empty hu]
    · simp [hu, State.acceptCbuf_units hu]
  | busy => cases ho : s.opl <;> by_cases hk : s.k = s.cfg.units - 1 <;> simp [State.cbufUnitStep, hk]

/-- Everything XBUF can do. -/
theorem execXbuf_cases (h : execXbuf s = .next t) :
    (s.phase = .idle ∧ 0 < s.cfg.units ∧
      t = { s with phase := .busy, opl := .xbuf, k := s.cfg.units - 1, done := false }) ∨
    (s.phase = .idle ∧ s.cfg.units = 0 ∧ t = ((s.markAccepted .xbuf).setIndex 0).completeXbuf) ∨
    (s.phase = .busy ∧ s.opl = .xbuf ∧ s.k = 0 ∧ t = s.expandUnitAtK.completeXbuf) ∨
    (s.phase = .busy ∧ s.opl = .xbuf ∧ s.k ≠ 0 ∧ t = s.expandUnitAtK.setIndex (s.k - 1)) ∨
    (s.phase = .busy ∧ s.opl = .cbuf ∧ t = s) := by
  rw [execXbuf_eq] at h
  injection h with h
  subst h
  cases hp : s.phase with
  | idle =>
    rcases Nat.eq_zero_or_pos s.cfg.units with hu | hu
    · simp [hu, State.acceptXbuf_empty hu]
    · simp [hu, State.acceptXbuf_units hu]
  | busy => cases ho : s.opl <;> by_cases hk : s.k = 0 <;> simp [State.xbufUnitStep, hk]

/-- Everything a step can do where it answers a next state. -/
theorem step_cases (h : step s = .next t) :
    (∃ i, s.action = .run i ∧ exec i s.sampled = .next t) ∨
    (s.action = .reset ∧ t = s.sampled.applyReset) ∨
    (s.action = .wait ∧ t = s.sampled) ∨
    (∃ a m, s.action = .access a m ∧ s.phase = .idle ∧ a < s.cfg.capacity ∧ t = s.sampled.setBuf m) := by
  unfold step at h
  split at h
  · rename_i i hi; exact .inl ⟨i, hi, h⟩
  · rename_i hi; exact .inr (.inl ⟨hi, by simpa using h.symm⟩)
  · rename_i hi; exact .inr (.inr (.inl ⟨hi, by simpa using h.symm⟩))
  · rename_i a m hi
    unfold State.hostAccess at h
    simp only [State.sampled_phase, State.sampled_cfg] at h
    split at h
    · cases h
    · rename_i hp
      split at h
      · rename_i ha; exact .inr (.inr (.inr ⟨a, m, hi, hp, ha, by simpa using h.symm⟩))
      · cases h

/-- Every action a state without a datum can ask for, with the host move behind it. -/
theorem State.action_cases (hb : s.bench = none) :
    (∃ start op, s.move = .drive true start op ∧ s.action = .reset) ∨
    (∃ start op, s.move = .drive false start op ∧ s.phase = .busy ∧ s.action = .run (commandInstr s.opl)) ∨
    (∃ op, s.move = .drive false true op ∧ s.phase = .idle ∧ s.action = .run (decodeOp op)) ∨
    (∃ op, s.move = .drive false false op ∧ s.phase = .idle ∧ s.action = .wait) ∨
    (∃ a, s.move = .read a ∧ s.action = .access a s.buf) ∨
    (∃ a d, s.move = .write a d ∧ s.action = .access a (s.buf.write a d)) := by
  unfold State.action State.portAction
  rw [hb]
  cases hm : s.move with
  | drive rst start op => cases rst <;> cases hp : s.phase <;> cases start <;> simp
  | read a => simp
  | write a d => simp

end Sys2Proof.Machine
end

