-- ==== Sys2Proof/Laws/PerInstr.lean ====
section
/-! SUPPORT. Per instruction: the pattern of a well-formed instance meets its own row of spec/opcode_table.json. -/

namespace Sys2Proof.Laws.TableRow

/-- A row's numbers as the table prints them. -/
structure Row where
  width : Nat
  mask : Nat
  pattern : Nat
deriving DecidableEq, Repr

/-- The row an instruction is an instance of: the table's `width`, `mask` and `match`. -/
def rowOf : Instr → Row
  | .cbuf => ⟨1, 0x1, 0x0⟩
  | .xbuf => ⟨1, 0x1, 0x1⟩
  | .compressedUnit _ _ _ _ => ⟨72, 0x0, 0x0⟩
  | .expandedUnit _ _ _ _ => ⟨96, 0x0, 0x0⟩
  | .field _ => ⟨18, 0x0, 0x0⟩
  | .sent00 => ⟨8, 0xFF, 0x00⟩
  | .sent7F => ⟨8, 0xFF, 0x7F⟩
  | .sent80 => ⟨8, 0xFF, 0x80⟩
  | .sentFF => ⟨8, 0xFF, 0xFF⟩
  | .sentOther _ => ⟨8, 0x00, 0x00⟩

/-- The pattern of a well-formed instance has its row's width, fits it, and matches the row under its mask; an instance
of the default row matches no other DATA8 row (spec/30_encoding.md R77). -/
def Statement (i : Instr) : Prop :=
  i.wellFormed = true →
    (encode i).width = (rowOf i).width ∧
    (encode i).bits < 2 ^ (rowOf i).width ∧
    (encode i).bits &&& (rowOf i).mask = (rowOf i).pattern ∧
    ∀ j ∈ [Instr.sent00, .sent7F, .sent80, .sentFF],
      i ≠ j → (encode i).width = 8 → (encode i).bits ≠ (rowOf j).pattern

theorem cbuf : Statement .cbuf := fun _ => by decide

theorem xbuf : Statement .xbuf := fun _ => by decide

theorem compressedUnit (f0 f1 f2 f3 : UnitField) : Statement (.compressedUnit f0 f1 f2 f3) := fun _ =>
  ⟨rfl, BitVec.isLt _, Nat.and_zero _, fun _ _ _ h => absurd h (by simp [encode, Encoded.width])⟩

theorem expandedUnit (s0 s1 s2 s3 : Sample) : Statement (.expandedUnit s0 s1 s2 s3) := fun _ =>
  ⟨rfl, BitVec.isLt _, Nat.and_zero _, fun _ _ _ h => absurd h (by simp [encode, Encoded.width])⟩

theorem field (f : UnitField) : Statement (.field f) := fun _ =>
  ⟨rfl, BitVec.isLt _, Nat.and_zero _, fun _ _ _ h => absurd h (by simp [encode, Encoded.width])⟩

theorem sent00 : Statement .sent00 := fun _ => by decide

theorem sent7F : Statement .sent7F := fun _ => by decide

theorem sent80 : Statement .sent80 := fun _ => by decide

theorem sentFF : Statement .sentFF := fun _ => by decide

theorem sentOther (b : Byte) : Statement (.sentOther b) := by
  revert b
  unfold Statement
  decide

end Sys2Proof.Laws.TableRow
end

