-- ==== Sys2Proof/Laws/Run.lean ====
section
/-! SUPPORT. Runs of several steps: the first step of a run, and a run cut in two. -/

namespace Sys2Proof.Machine

variable {s t : State} {k : Nat}

/-- A run of one more step, for any machine behind the host's interface. -/
theorem run_succ (M : Host.Core) (k : Nat) (s : M.State) : M.run (k + 1) s = match M.step s with
    | .next t => M.run k t
    | .fault r => .fault r
    | .refused r => .refused r := by rfl

/-- A run whose first step answers a next state goes on from it. -/
theorem run_next (h : step s = .next t) : core.run (k + 1) s = core.run k t := by
  have := run_succ core k s
  rw [show core.step s = .next t from h] at this
  exact this

/-- A run that reaches a state made a first step, unless it is no run at all. -/
theorem run_cases (h : core.run k s = .next t) :
    (k = 0 ∧ s = t) ∨ ∃ j u, k = j + 1 ∧ step s = .next u ∧ core.run j u = .next t := by
  cases k with
  | zero =>
    have : (Host.Outcome.next s : Host.Outcome core.State core.Fault core.Refusal) = .next t := h
    injection this with e
    exact .inl ⟨rfl, e⟩
  | succ j =>
    have e := (run_succ core j s).symm.trans h
    cases hs : core.step s with
    | next u =>
      rw [hs] at e
      exact .inr ⟨j, u, rfl, hs, e⟩
    | fault r => rw [hs] at e; cases e
    | refused r => rw [hs] at e; cases e

/-- A run of `j + k` steps is a run of `j` and then one of `k`. -/
theorem run_add (j : Nat) (h : core.run j s = .next t) : core.run (j + k) s = core.run k t := by
  induction j generalizing s with
  | zero =>
    rcases run_cases h with ⟨_, rfl⟩ | ⟨_, _, e, _⟩
    · rw [Nat.zero_add]
    · omega
  | succ j ih =>
    rcases run_cases h with ⟨e, _⟩ | ⟨i, u, e, hs, hr⟩
    · omega
    · obtain rfl : j = i := by omega
      rw [Nat.add_right_comm, run_next hs]
      exact ih hr

end Sys2Proof.Machine
end

