-- ==== Sys2Proof/Tests/Slice0.lean ====
section
/-! SUPPORT. The model's own tests: ill-formed terms refused, words written out from the spec's tables, single steps
against spec/95_test_vectors.md, and for every obligation with hypotheses a state and operands that meet them. -/

namespace Sys2Proof.Tests

open Sys2Proof.Machine

/-! Helpers: small states. -/

/-- The state after reset of a machine of `n` units that holds `m`. -/
def idleWith (n : Nat) (m : Memory) : State :=
  { State.reset with cfg := ⟨12 * n, Nat.dvd_mul_right 12 n⟩, buf := m }

/-- The same, with command `c` in progress at unit `k`. -/
def busyWith (n : Nat) (m : Memory) (c : Command) (k : Nat) : State :=
  { idleWith n m with phase := .busy, opl := c, k := k }

/-- The same state with the coming host moves. -/
def drivenBy (s : State) (l : List HostMove) : State := { s with inputs := l }

/-- A buffer that holds the given bytes from offset 0 on. -/
def bufOf (l : List Byte) : Memory := Memory.memWrite [] 0 l

/-- The first `n` bytes of a buffer. -/
def bytesOf (m : Memory) (n : Nat) : List Byte := (List.range n).map m.read

/-- The next state, where there is one. -/
def nextOf : Host.Outcome State Fault Refusal → Option State
  | .next s => some s
  | .fault _ => none
  | .refused _ => none

/-- The start buffer of program P2. -/
def p2 : List Byte :=
  [0x00, 0x12, 0x34, 0x7F, 0x56, 0x78, 0x80, 0x9A, 0xBC, 0xFF, 0xDE, 0xF0,
   0xFF, 0x00, 0x01, 0x80, 0xFF, 0xFE, 0x7F, 0x80, 0x00, 0x00, 0x7F, 0xFF]

/-- P2 after the CBUF unit step `k = 0`. -/
def p2mid : List Byte :=
  [0x04, 0x8D, 0x15, 0x67, 0x8A, 0x6A, 0xF3, 0xDE, 0xF0, 0xFF, 0xDE, 0xF0,
   0xFF, 0x00, 0x01, 0x80, 0xFF, 0xFE, 0x7F, 0x80, 0x00, 0x00, 0x7F, 0xFF]

/-- P2 after both CBUF unit steps. -/
def p2packed : List Byte :=
  [0x04, 0x8D, 0x15, 0x67, 0x8A, 0x6A, 0xF3, 0xDE, 0xF0, 0xC0, 0x00, 0x6F, 0xFF, 0xE6, 0x00, 0x00, 0x7F, 0xFF]

/-- P2 after the XBUF unit step `k = 1`. -/
def p2half : List Byte :=
  [0x04, 0x8D, 0x15, 0x67, 0x8A, 0x6A, 0xF3, 0xDE, 0xF0, 0xC0, 0x00, 0x6F,
   0xFF, 0x00, 0x01, 0x80, 0xFF, 0xFE, 0x7F, 0x80, 0x00, 0x00, 0x7F, 0xFF]

/-! Well-formedness: SENT_OTHER refuses the four bytes of the earlier rows (R77) and no other. -/

theorem test_wellFormed_refuses_sentinels :
    (Instr.sentOther 0x00).wellFormed = false ∧ (Instr.sentOther 0x7F).wellFormed = false ∧
    (Instr.sentOther 0x80).wellFormed = false ∧ (Instr.sentOther 0xFF).wellFormed = false := by decide

theorem test_wellFormed_neighbours :
    (Instr.sentOther 0x01).wellFormed = true ∧ (Instr.sentOther 0x7E).wellFormed = true ∧
    (Instr.sentOther 0x81).wellFormed = true ∧ (Instr.sentOther 0xFE).wellFormed = true := by decide

/-! Decoding of words written out from spec/30_encoding.md R65 and R68 to R71. -/

theorem test_decode_cbuf : decode (.cmd1 0b0) = .cbuf := by decide

theorem test_decode_xbuf : decode (.cmd1 0b1) = .xbuf := by decide

/-- The stream of PK6, code and payload of each field in turn. -/
theorem test_decode_compressedUnit :
    decode (.data (.data72 0b000001001000110100010101011001111000101001101010111100111101111011110000)) =
      .compressedUnit ⟨0b00, 0x1234⟩ ⟨0b01, 0x5678⟩ ⟨0b10, 0x9ABC⟩ ⟨0b11, 0xDEF0⟩ := by decide

/-- The twelve bytes of PK6, u[0] first. -/
theorem test_decode_expandedUnit :
    decode (.data (.data96 0x0012347F5678809ABCFFDEF0)) =
      .expandedUnit ⟨0x00, 0x12, 0x34⟩ ⟨0x7F, 0x56, 0x78⟩ ⟨0x80, 0x9A, 0xBC⟩ ⟨0xFF, 0xDE, 0xF0⟩ := by decide

/-- Field 2 of PK6: code 10, payload 1001101010111100. -/
theorem test_decode_field : decode (.data (.data18 0b101001101010111100)) = .field ⟨0b10, 0x9ABC⟩ := by decide

theorem test_decode_sent00 : decode (.data (.data8 0b00000000)) = .sent00 := by decide

theorem test_decode_sent7F : decode (.data (.data8 0b01111111)) = .sent7F := by decide

theorem test_decode_sent80 : decode (.data (.data8 0b10000000)) = .sent80 := by decide

theorem test_decode_sentFF : decode (.data (.data8 0b11111111)) = .sentFF := by decide

theorem test_decode_sentOther : decode (.data (.data8 0b10000001)) = .sentOther 0x81 := by decide

theorem test_encode_units :
    encode (.compressedUnit ⟨0b00, 0x1234⟩ ⟨0b01, 0x5678⟩ ⟨0b10, 0x9ABC⟩ ⟨0b11, 0xDEF0⟩) =
      .data (.data72 0x048D15678A6AF3DEF0) ∧
    encode (.expandedUnit ⟨0x00, 0x12, 0x34⟩ ⟨0x7F, 0x56, 0x78⟩ ⟨0x80, 0x9A, 0xBC⟩ ⟨0xFF, 0xDE, 0xF0⟩) =
      .data (.data96 0x0012347F5678809ABCFFDEF0) := by decide

theorem test_tableWord_rows :
    decodeTableWord 8 0 = some .cbuf ∧ decodeTableWord 8 1 = some .xbuf ∧ decodeTableWord 1 1 = some .xbuf ∧
    decodeTableWord 18 0x0AABB = some (.field ⟨0b00, 0xAABB⟩) ∧
    decodeTableWord 24 0x3FFFF = some (.field ⟨0b11, 0xFFFF⟩) ∧
    decodeTableWord 8 0x7F = some .sent7F ∧ decodeTableWord 8 0x80 = some .sent80 ∧
    decodeTableWord 8 0xFF = some .sentFF ∧ decodeTableWord 8 0x02 = some (.sentOther 0x02) := by decide

theorem test_tableWord_refused :
    decodeTableWord 8 256 = none ∧ decodeTableWord 18 0x40000 = none ∧ decodeTableWord 1 2 = none ∧
    decodeTableWord 16 0 = none := by decide

/-- A placed word is run by the first step after reset: a command is accepted, a datum reaches the datapath. -/
theorem test_placed_words_run :
    ((nextOf (step (State.reset.withFetchWord 8 0))).map fun t => (t.phase, t.opl)) = some (.busy, .cbuf) ∧
    ((nextOf (step (State.reset.withFetchWord 8 1))).map fun t => (t.phase, t.opl)) = some (.busy, .xbuf) ∧
    ((nextOf (step (State.reset.withFetchWord 8 0x7F))).map fun t => (t.phase, t.lane)) =
      some (.idle, some (.sentinel 0b01 0x7F)) := by decide

/-! The datapath against spec/95_test_vectors.md, sections 2.1 to 2.3. -/

/-- Section 2.1: the neighbours of every sentinel value. -/
theorem test_enc2_neighbours :
    [0x00, 0x01, 0x02, 0x3F, 0x40, 0x7E, 0x7F, 0x80, 0x81, 0xC0, 0xFE, 0xFF, 0x55, 0xAA].map enc2 =
      [0b00, 0b11, 0b11, 0b11, 0b11, 0b11, 0b01, 0b10, 0b11, 0b11, 0b11, 0b11, 0b11, 0b11] := by decide

/-- PK5 and PK31. -/
theorem test_packUnit :
    packUnit #v[0x80, 0x00, 0x00, 0x7F, 0xFF, 0xFF, 0x80, 0x00, 0x00, 0x7F, 0xFF, 0xFF] =
      #v[0x80, 0x00, 0x1F, 0xFF, 0xF8, 0x00, 0x01, 0xFF, 0xFF] ∧
    packUnit #v[0x01, 0x12, 0x34, 0x7E, 0x56, 0x78, 0x81, 0x9A, 0xBC, 0xFE, 0xDE, 0xF0] =
      #v[0xC4, 0x8D, 0x35, 0x67, 0x8E, 0x6A, 0xF3, 0xDE, 0xF0] := by decide

/-- PK23 to PK26: bit 15 of each payload; PK8 and PK10: a code in the middle and the last one. -/
theorem test_packUnit_bits :
    packUnit #v[0, 0x80, 0, 0, 0, 0, 0, 0, 0, 0, 0, 0] = #v[0x20, 0, 0, 0, 0, 0, 0, 0, 0] ∧
    packUnit #v[0, 0, 0, 0, 0x80, 0, 0, 0, 0, 0, 0, 0] = #v[0, 0, 0x08, 0, 0, 0, 0, 0, 0] ∧
    packUnit #v[0, 0, 0, 0, 0, 0, 0, 0x80, 0, 0, 0, 0] = #v[0, 0, 0, 0, 0x02, 0, 0, 0, 0] ∧
    packUnit #v[0, 0, 0, 0, 0, 0, 0, 0, 0, 0, 0x80, 0] = #v[0, 0, 0, 0, 0, 0, 0, 0x80, 0] ∧
    packUnit #v[0, 0, 0, 0xFF, 0, 0, 0, 0, 0, 0, 0, 0] = #v[0, 0, 0x30, 0, 0, 0, 0, 0, 0] ∧
    packUnit #v[0, 0, 0, 0, 0, 0, 0, 0, 0, 0xFF, 0, 0] = #v[0, 0, 0, 0, 0, 0, 0x03, 0, 0] := by decide

/-- X3 and X5. -/
theorem test_unpackUnit :
    unpackUnit #v[0x55, 0x55, 0x55, 0x55, 0x55, 0x55, 0x55, 0x55, 0x55] =
      #v[0x7F, 0x55, 0x55, 0x7F, 0x55, 0x55, 0x7F, 0x55, 0x55, 0x7F, 0x55, 0x55] ∧
    unpackUnit #v[0x12, 0x34, 0x56, 0x78, 0x9A, 0xBC, 0xDE, 0xF0, 0x11] =
      #v[0x00, 0x48, 0xD1, 0x7F, 0x67, 0x89, 0x80, 0xAF, 0x37, 0x80, 0xF0, 0x11] := by decide

/-! The meanings, one step each. -/

/-- P2, CBUF, `k = 0`: the buffer after the step, CU, and K moved up. -/
theorem test_cbuf_unit_step :
    ((nextOf (exec .cbuf (busyWith 2 (bufOf p2) .cbuf 0))).map fun t => (bytesOf t.buf 24, t.cu, t.k, t.phase)) =
      some (p2mid, #v[0x04, 0x8D, 0x15, 0x67, 0x8A, 0x6A, 0xF3, 0xDE, 0xF0], 1, .busy) := by decide

/-- P2, CBUF, `k = 1`: unit 1 in CU, the bytes of the compressed image that are not 0 (past them the trailing bytes are
free, and a byte 0 is an offset the list does not name), `LEN = 18` and completion. -/
theorem test_cbuf_completes :
    ((nextOf (exec .cbuf (busyWith 2 (bufOf p2mid) .cbuf 1))).map fun t =>
      (t.cu, [0, 8, 9, 11, 12, 13, 16, 17].map t.buf.read, t.len, t.done, t.phase)) =
      some (#v[0xC0, 0x00, 0x6F, 0xFF, 0xE6, 0x00, 0x00, 0x7F, 0xFF],
        [0x04, 0xF0, 0xC0, 0x6F, 0xFF, 0xE6, 0x7F, 0xFF], 18, true, .idle) := by decide

/-- P2, XBUF, `k = 1`: the buffer after the step, and K moved down. -/
theorem test_xbuf_unit_step :
    ((nextOf (exec .xbuf (busyWith 2 (bufOf p2packed) .xbuf 1))).map fun t => (bytesOf t.buf 24, t.k, t.phase)) =
      some (p2half, 0, .busy) := by decide

/-- P4, XBUF: the lossy fallback, `LEN = 12`, completion and no error. -/
theorem test_xbuf_completes :
    ((nextOf (exec .xbuf (busyWith 1 (bufOf [0xC4, 0x8D, 0x35, 0x67, 0x8E, 0x6A, 0xF3, 0xDE, 0xF0]) .xbuf 0))).map
      fun t => (bytesOf t.buf 12, t.len, t.done, t.phase)) =
      some ([0xFF, 0x12, 0x34, 0xFF, 0x56, 0x78, 0xFF, 0x9A, 0xBC, 0xFF, 0xDE, 0xF0], 12, true, .idle) := by decide

/-- X6 as a row: EU is the inverse of PK6. -/
theorem test_compressedUnit :
    ((nextOf (exec (.compressedUnit ⟨0b00, 0x1234⟩ ⟨0b01, 0x5678⟩ ⟨0b10, 0x9ABC⟩ ⟨0b11, 0xDEF0⟩) State.reset)).map
      fun t => (t.eu, t.cu)) =
      some (#v[0x00, 0x12, 0x34, 0x7F, 0x56, 0x78, 0x80, 0x9A, 0xBC, 0xFF, 0xDE, 0xF0],
        #v[0x04, 0x8D, 0x15, 0x67, 0x8A, 0x6A, 0xF3, 0xDE, 0xF0]) := by decide

/-- V1 as a row: CU is the compressed unit of four samples 00 AA BB. -/
theorem test_expandedUnit :
    ((nextOf (exec (.expandedUnit ⟨0x00, 0xAA, 0xBB⟩ ⟨0x00, 0xAA, 0xBB⟩ ⟨0x00, 0xAA, 0xBB⟩ ⟨0x00, 0xAA, 0xBB⟩)
      State.reset)).map fun t => t.cu) =
      some #v[0x2A, 0xAE, 0xCA, 0xAB, 0xB2, 0xAA, 0xEC, 0xAA, 0xBB] := by decide

/-- Field 1 of PK6 unpacks to its sample. -/
theorem test_field :
    ((nextOf (exec (.field ⟨0b01, 0x5678⟩) State.reset)).map fun t => t.lane) =
      some (some (.sample ⟨0x7F, 0x56, 0x78⟩)) := by decide

/-- V2: the four sentinels and the fallback. -/
theorem test_sentinel_rows :
    ([Instr.sent00, .sent7F, .sent80, .sentFF, .sentOther 0x01].map fun i =>
      ((nextOf (exec i State.reset)).map fun t => t.lane)) =
      [some (some (.sentinel 0b00 0x00)), some (some (.sentinel 0b01 0x7F)), some (some (.sentinel 0b10 0x80)),
       some (some (.sentinel 0b11 0xFF)), some (some (.sentinel 0b11 0xFF))] := by decide

/-! The handshake of P6, one step each. -/

/-- P6 steps 1 and 3: acceptance latches the command, clears DONE and leaves LEN. -/
theorem test_acceptance :
    ((nextOf (step (drivenBy (idleWith 1 []) [.drive false true 0]))).map fun t => (t.phase, t.opl, t.k, t.done, t.len)) =
      some (.busy, .cbuf, 0, false, 0) ∧
    ((nextOf (step (drivenBy { idleWith 2 [] with len := 18, done := true } [.drive false true 1]))).map fun t =>
      (t.phase, t.opl, t.k, t.done, t.len)) = some (.busy, .xbuf, 1, false, 18) := by decide

/-- P6 steps 5 and 7: reset in IDLE keeps BUF; reset in BUSY abandons the command. -/
theorem test_reset :
    ((nextOf (step (drivenBy { idleWith 1 [(3, 7)] with len := 12, done := true } [.drive true true 0]))).map fun t =>
      (t.phase, t.done, t.len, t.buf)) = some (.idle, false, 0, [(3, 7)]) ∧
    ((nextOf (step (drivenBy (busyWith 1 [] .cbuf 0) [.drive true false 0]))).map fun t => (t.phase, t.done, t.len)) =
      some (.idle, false, 0) := by decide

/-- A `start` in BUSY is ignored: the running CBUF makes its unit step (R124). -/
theorem test_start_while_busy :
    ((nextOf (step (drivenBy (busyWith 2 [] .cbuf 0) [.drive false true 1]))).map fun t => (t.phase, t.opl, t.k)) =
      some (.busy, .cbuf, 1) := by decide

/-- N = 0 (D21): both commands complete at once with `LEN = 0`. -/
theorem test_empty_buffer :
    ((nextOf (exec .cbuf (idleWith 0 []))).map fun t => (t.phase, t.done, t.len)) = some (.idle, true, 0) ∧
    ((nextOf (exec .xbuf (idleWith 0 []))).map fun t => (t.phase, t.done, t.len)) = some (.idle, true, 0) := by decide

/-- Section 2.5: a multiple of 9 is no capacity, a multiple of 12 is. -/
theorem test_capacity :
    ((Config.ofCapacity 36).toOption.map Config.units) = some 3 ∧ (Config.ofCapacity 18).toOption = none ∧
    (Config.ofCapacity 9).toOption = none ∧ (Config.ofCapacity 13).toOption = none := by decide

/-- The moves of a script (R76) that fills one byte and runs XBUF; and the result of an ended run (R177). -/
theorem test_host_script :
    scriptMoves (idleWith 1 []).cfg [.fill 3 [7], .command .xbuf] =
      [.write 3 7, .drive false true 1, .drive false false 0] ∧
    State.result { idleWith 1 [(0, 1), (8, 2)] with len := 9, done := true } = some [1, 0, 0, 0, 0, 0, 0, 0, 2] ∧
    State.result (idleWith 1 [(0, 1)]) = none := by decide

/-- A write of the byte an unlisted offset reads as removes the entry; the list stays sorted. -/
theorem test_memory_canonical :
    Memory.write [(1, 5), (4, 6)] 1 0 = [(4, 6)] ∧ Memory.write [(1, 5), (4, 6)] 2 9 = [(1, 5), (2, 9), (4, 6)] ∧
    Memory.write [(1, 5)] 1 8 = [(1, 8)] ∧ Memory.wf [(4, 6), (1, 5)] = false := by decide

/-! For every obligation with hypotheses: a concrete state and operands that meet them together, clause by clause. -/

/-- The compressed unit and the expanded unit of PK6. -/
def pk6 : ExpandedUnit := #v[0x00, 0x12, 0x34, 0x7F, 0x56, 0x78, 0x80, 0x9A, 0xBC, 0xFF, 0xDE, 0xF0]

/-- PK6 with `0x01` for its last sentinel byte. -/
def pk6alias : ExpandedUnit := #v[0x00, 0x12, 0x34, 0x7F, 0x56, 0x78, 0x80, 0x9A, 0xBC, 0x01, 0xDE, 0xF0]

theorem witness_DecodeOfEncodeIsIdentity :
    (Instr.sentOther 0x01).wellFormed = true ∧ (Instr.sentOther 0xFE).wellFormed = true ∧
    (Instr.field ⟨0b11, 0xFFFF⟩).wellFormed = true := by decide

theorem witness_TableWordsDecodeToTheirRow :
    (Instr.sentOther 0x02).wellFormed = true ∧ Instr.sentOther 0x02 ≠ .sent00 ∧
    Instr.sentOther 0x02 ≠ .sentOther 0x01 := by decide

theorem witness_SentinelEncodeFollowsTheTable :
    (0x01 : Byte) ≠ 0x00 ∧ (0x01 : Byte) ≠ 0x7F ∧ (0x01 : Byte) ≠ 0x80 ∧
    (0xFF : Byte) ≠ 0x00 ∧ (0xFF : Byte) ≠ 0x7F ∧ (0xFF : Byte) ≠ 0x80 := by decide

theorem witness_SentinelDecodeFollowsTheTable :
    dec2 0b11 = dec2 0b11 ∧ isSentinel 0xFF = true ∧ isSentinel 0xFE = false := by decide

theorem witness_UnitRoundTripIsExact :
    isSentinel pk6[0] = true ∧ isSentinel pk6[3] = true ∧ isSentinel pk6[6] = true ∧ isSentinel pk6[9] = true := by
  decide

theorem witness_UnitRoundTripCanonicalises :
    (∀ i : Fin 4, isSentinel (sampleAt pk6 i).byte0 = true) ∧ unpackUnit (packUnit pk6alias) ≠ pk6alias := by decide

theorem witness_CompressedRoundTripIsIdentity :
    unpackUnit (packUnit pk6) = unpackUnit (packUnit pk6alias) ∧
    (∀ i : Fin 4, isSentinel (sampleAt pk6 i).byte0 = true) := by decide

theorem witness_PackUnitLosesOnlySentinelAliases : packUnit pk6 = packUnit pk6alias ∧ pk6 ≠ pk6alias := by decide

theorem witness_CapacityCheckRefusesNonMultiples : 12 ∣ 0 ∧ 12 ∣ 12 ∧ ¬ 12 ∣ 11 ∧ ¬ 12 ∣ 18 := by decide

theorem witness_OffsetsAndLengthsFitTheirWidths :
    11 < (idleWith 1 []).cfg.capacity ∧ 12 ≤ (idleWith 1 []).cfg.capacity ∧ (idleWith 1 []).cfg.capacity < 2 ^ 4 := by
  decide

theorem witness_CanonicalBuffersReadingAlikeAreEqual :
    Memory.wf [(0, 1), (11, 2)] = true ∧ (∀ a, Memory.read [(0, 1), (11, 2)] a = Memory.read [(0, 1), (11, 2)] a) :=
  ⟨by decide, fun _ => rfl⟩

/-- The three clauses: a command accepted, both values of `op`; N = 0; a `start` in BUSY. -/
theorem witness_StartIsAcceptedWhenIdleAndIgnoredWhenBusy :
    (∀ op : BitVec 1, ∃ s : State, s.bench = none ∧ s.inputs = .drive false true op :: [] ∧ s.phase = .idle ∧
      0 < s.cfg.units) ∧
    (∀ op : BitVec 1, ∃ s : State, s.bench = none ∧ s.inputs = .drive false true op :: [] ∧ s.phase = .idle ∧
      s.cfg.units = 0) ∧
    (∀ op : BitVec 1, ∃ s : State, s.bench = none ∧ s.inputs = .drive false true op :: [] ∧ s.phase = .busy) :=
  ⟨fun op => ⟨drivenBy (idleWith 1 []) [.drive false true op], rfl, rfl, rfl, (by decide : 0 < (idleWith 1 []).cfg.units)⟩,
   fun op => ⟨drivenBy (idleWith 0 []) [.drive false true op], rfl, rfl, rfl, (by decide : (idleWith 0 []).cfg.units = 0)⟩,
   fun op => ⟨drivenBy (busyWith 1 [] .cbuf 0) [.drive false true op], rfl, rfl, rfl⟩⟩

theorem witness_CbufIsAcceptedWhenIdle : (idleWith 1 []).phase = .idle ∧ 0 < (idleWith 1 []).cfg.units := by decide

theorem witness_XbufIsAcceptedWhenIdle : (idleWith 2 []).phase = .idle ∧ 0 < (idleWith 2 []).cfg.units := by decide

/-- The last unit, a unit before it, and the ranges of units 2 and 3. -/
theorem witness_CbufUnitStepPacksOneUnit :
    (∀ k ∈ [0, 1], (busyWith 2 (bufOf p2) .cbuf k).phase = .busy ∧ (busyWith 2 (bufOf p2) .cbuf k).opl = .cbuf ∧
      (busyWith 2 (bufOf p2) .cbuf k).buf.wf = true) ∧
    (busyWith 2 [] .cbuf 1).k = (busyWith 2 [] .cbuf 1).cfg.units - 1 ∧
    (busyWith 2 [] .cbuf 0).k ≠ (busyWith 2 [] .cbuf 0).cfg.units - 1 ∧
    (12 * 2 ≤ 24 ∧ 24 < 12 * 2 + 12 ∧ 9 * 2 ≤ 24 ∧ 24 < 9 * 2 + 9) ∧ ¬ 12 * 3 < 9 * 3 + 9 := by decide

/-- Unit 0 and a unit above it. -/
theorem witness_XbufUnitStepUnpacksOneUnit :
    (∀ k ∈ [0, 1], (busyWith 2 (bufOf p2packed) .xbuf k).phase = .busy ∧
      (busyWith 2 (bufOf p2packed) .xbuf k).opl = .xbuf ∧ (busyWith 2 (bufOf p2packed) .xbuf k).buf.wf = true) ∧
    (busyWith 2 [] .xbuf 0).k = 0 ∧ (busyWith 2 [] .xbuf 1).k ≠ 0 := by decide

theorem witness_LengthsFollowTheSizeLaw :
    (∃ s t : State, s.done = false ∧ exec .cbuf s = .next t ∧ t.done = true) ∧
    (∃ s t : State, s.done = false ∧ exec .xbuf s = .next t ∧ t.done = true) :=
  ⟨⟨busyWith 1 [] .cbuf 0, _, rfl, rfl, rfl⟩, ⟨busyWith 1 [] .xbuf 0, _, rfl, rfl, rfl⟩⟩

/-- With the first and the last trailing byte. -/
theorem witness_TrailingBytesAreFreeAfterCbuf :
    (busyWith 1 [] .cbuf 0).phase = .busy ∧ (busyWith 1 [] .cbuf 0).opl = .cbuf ∧
    (busyWith 1 [] .cbuf 0).k = (busyWith 1 [] .cbuf 0).cfg.units - 1 ∧ (busyWith 1 [] .cbuf 0).buf.wf = true ∧
    (busyWith 1 [] .cbuf 0).cfg.compressedLength ≤ 9 ∧ 11 < (busyWith 1 [] .cbuf 0).cfg.capacity := by decide

/-- Acceptance, a unit step, the last one, and the other command in progress. -/
theorem witness_CbufFrame :
    (∃ s t : State, exec .cbuf s = .next t ∧ ¬ (s.phase = .busy ∧ s.opl = .cbuf) ∧ t.phase = .busy) ∧
    (∃ s t : State, exec .cbuf s = .next t ∧ s.phase = .busy ∧ t.phase = .busy ∧ s.opl = .cbuf ∧
      ¬ (s.phase = .busy ∧ s.opl = .cbuf ∧ 9 * s.k ≤ 9 ∧ 9 < 9 * s.k + 9)) ∧
    (∃ s t : State, exec .cbuf s = .next t ∧ t.phase = .idle ∧
      ¬ (s.cfg.compressedLength ≤ 12 ∧ 12 < s.cfg.capacity)) ∧
    (∃ s t : State, exec .cbuf s = .next t ∧ s.phase = .busy ∧ s.opl = .xbuf) :=
  ⟨⟨idleWith 1 [], _, rfl, by decide, rfl⟩, ⟨busyWith 2 [] .cbuf 0, _, rfl, rfl, rfl, rfl, by decide⟩,
   ⟨busyWith 1 [] .cbuf 0, _, rfl, rfl, by decide⟩, ⟨busyWith 1 [] .xbuf 0, _, rfl, rfl, rfl⟩⟩

/-- The same for XBUF, with the bytes on either side of unit 1. -/
theorem witness_XbufFrame :
    (∃ s t : State, exec .xbuf s = .next t ∧ ¬ (s.phase = .busy ∧ s.opl = .xbuf) ∧ t.phase = .busy) ∧
    (∃ s t : State, exec .xbuf s = .next t ∧ s.phase = .busy ∧ t.phase = .busy ∧ s.opl = .xbuf ∧
      ¬ (s.phase = .busy ∧ s.opl = .xbuf ∧ 12 * s.k ≤ 11 ∧ 11 < 12 * s.k + 12) ∧
      ¬ (s.phase = .busy ∧ s.opl = .xbuf ∧ 12 * s.k ≤ 24 ∧ 24 < 12 * s.k + 12)) ∧
    (∃ s t : State, exec .xbuf s = .next t ∧ s.phase = .busy ∧ s.opl = .cbuf) :=
  ⟨⟨idleWith 1 [], _, rfl, by decide, rfl⟩, ⟨busyWith 2 [] .xbuf 1, _, rfl, rfl, rfl, rfl, by decide, by decide⟩,
   ⟨busyWith 1 [] .cbuf 0, _, rfl, rfl, rfl⟩⟩

theorem witness_SentinelRowsGiveCodeAndByte : isSentinel 0x01 = false ∧ isSentinel 0xFE = false := by decide

/-- A unit row, and a row of another shape. -/
theorem witness_DatapathFrame :
    (∃ t, exec (.compressedUnit ⟨0, 0⟩ ⟨0, 0⟩ ⟨0, 0⟩ ⟨0, 0⟩) (idleWith 1 []) = .next t) ∧
    (∃ t, exec (.expandedUnit ⟨0, 0, 0⟩ ⟨0, 0, 0⟩ ⟨0, 0, 0⟩ ⟨0, 0, 0⟩) (idleWith 1 []) = .next t) ∧
    (∃ t, exec .sentFF (idleWith 1 []) = .next t) ∧ Instr.sentFF ≠ .cbuf ∧ Instr.sentFF ≠ .xbuf ∧
    (∀ f0 f1 f2 f3, Instr.sentFF ≠ .compressedUnit f0 f1 f2 f3) ∧
    (∀ s0 s1 s2 s3, Instr.sentFF ≠ .expandedUnit s0 s1 s2 s3) :=
  ⟨⟨_, rfl⟩, ⟨_, rfl⟩, ⟨_, rfl⟩, by decide, by decide, fun _ _ _ _ => nofun, fun _ _ _ _ => nofun⟩

/-- The four clauses: a datum, an accepted command, a unit step under a move, a unit step with none left. -/
theorem witness_StepRunsTheDecodedInstruction :
    (State.reset.present (.data (.data8 0x7F))).bench = some (.data8 0x7F) ∧
    ((State.reset.present (.cmd1 1)).bench = none ∧ (State.reset.present (.cmd1 1)).phase = .idle ∧
      (State.reset.present (.cmd1 1)).inputs = .drive false true 1 :: []) ∧
    ((drivenBy (busyWith 1 [] .cbuf 0) [.drive false true 1]).bench = none ∧
      (drivenBy (busyWith 1 [] .cbuf 0) [.drive false true 1]).phase = .busy) ∧
    ((busyWith 1 [] .cbuf 0).bench = none ∧ (busyWith 1 [] .cbuf 0).phase = .busy ∧
      (busyWith 1 [] .cbuf 0).inputs = []) := by decide

theorem witness_PlacedTableWordIsRunNext :
    (busyWith 1 [] .xbuf 0).bench = none ∧ decodeTableWord 8 0 = some .cbuf ∧ decodeTableWord 8 1 = some .xbuf ∧
    decodeTableWord 18 0x3FFFF = some (.field ⟨0b11, 0xFFFF⟩) := by decide

theorem witness_IdleTranscoderWaits :
    ((idleWith 1 []).bench = none ∧ (idleWith 1 []).phase = .idle ∧ (idleWith 1 []).inputs = []) ∧
    (drivenBy (idleWith 1 []) [.drive false false 1]).inputs = .drive false false 1 :: [] := by decide

/-- The last byte, the offset past it, and the same while BUSY. -/
theorem witness_HostAccessOnlyWhenIdle :
    ((drivenBy (idleWith 1 []) [.write 11 7]).bench = none ∧
      (drivenBy (idleWith 1 []) [.write 11 7]).inputs = .write 11 7 :: [] ∧
      (drivenBy (idleWith 1 []) [.write 11 7]).phase = .idle ∧ 11 < (idleWith 1 []).cfg.capacity ∧
      (idleWith 1 []).buf.wf = true) ∧
    (idleWith 1 []).cfg.capacity ≤ 12 ∧
    ((drivenBy (busyWith 1 [] .cbuf 0) [.read 0]).bench = none ∧
      (drivenBy (busyWith 1 [] .cbuf 0) [.read 0]).inputs = .read 0 :: [] ∧
      (drivenBy (busyWith 1 [] .cbuf 0) [.read 0]).phase = .busy) := by decide

/-- Waiting, accepting and serving a read, in IDLE. -/
theorem witness_IdleTranscoderLeavesTheBuffer :
    ∀ m ∈ [quiet, .drive false true 0, .drive true false 0, .read 0],
      ∃ t, (drivenBy (idleWith 1 []) [m]).phase = .idle ∧ 0 < (drivenBy (idleWith 1 []) [m]).cfg.units ∧
        step (drivenBy (idleWith 1 []) [m]) = .next t ∧
        ∀ a d, (drivenBy (idleWith 1 []) [m]).move ≠ .write a d := by
  intro m hm
  simp only [List.mem_cons, List.not_mem_nil, or_false] at hm
  rcases hm with rfl | rfl | rfl | rfl <;> exact ⟨_, by decide, by decide, rfl, fun _ _ => nofun⟩

theorem witness_ResetOverridesEveryOtherRule :
    ∀ c ∈ [busyWith 1 [] .cbuf 0, idleWith 1 []],
      (drivenBy c [.drive true true 1]).bench = none ∧
      (drivenBy c [.drive true true 1]).inputs = .drive true true 1 :: [] := by
  intro c hc
  simp only [List.mem_cons, List.not_mem_nil, or_false] at hc
  rcases hc with rfl | rfl <;> exact ⟨rfl, rfl⟩

theorem witness_ResetWhileBusyFreesTheBuffer :
    (drivenBy (busyWith 1 [] .xbuf 0) [.drive true false 0]).bench = none ∧
    (drivenBy (busyWith 1 [] .xbuf 0) [.drive true false 0]).phase = .busy ∧
    (drivenBy (busyWith 1 [] .xbuf 0) [.drive true false 0]).buf.wf = true ∧
    (drivenBy (busyWith 1 [] .xbuf 0) [.drive true false 0]).inputs = .drive true false 0 :: [] ∧
    0 < (busyWith 1 [] .xbuf 0).cfg.capacity ∧ 11 < (busyWith 1 [] .xbuf 0).cfg.capacity := by decide

/-- A legal state with CBUF in progress. -/
theorem busy_legal : (busyWith 2 (bufOf p2) .cbuf 1).Legal where
  bufCanonical := by decide
  bufInRange := by decide
  indexInRange := fun _ => by decide
  busyNotDone := fun _ => rfl
  lengthLegal := .inl rfl
  doneLength := nofun

theorem witness_StepKeepsLegalStates :
    (busyWith 2 (bufOf p2) .cbuf 1).Legal ∧ ∃ t, step (busyWith 2 (bufOf p2) .cbuf 1) = .next t := ⟨busy_legal, _, rfl⟩

theorem witness_StepNeverPresentsADatum :
    (State.reset.present (.data (.data8 0x7F))).bench ≠ none ∧
    ∃ t, step (State.reset.present (.data (.data8 0x7F))) = .next t := ⟨by decide, _, rfl⟩

theorem witness_StepKeepsTheConfiguration : ∃ t, step (idleWith 1 []) = .next t := ⟨_, rfl⟩

/-- CBUF on P2: before unit 0 (another follows), and before unit 1 (the last), with unit 0 packed. -/
theorem witness_CbufIsSafeInPlace :
    ((busyWith 2 (bufOf p2) .cbuf 0).CompressingFrom (bufOf p2) ∧ (busyWith 2 (bufOf p2) .cbuf 0).bench = none ∧
      (busyWith 2 (bufOf p2) .cbuf 0).move.leavesAlone = true ∧ 0 + 1 < (busyWith 2 (bufOf p2) .cbuf 0).cfg.units) ∧
    ((busyWith 2 ((bufOf p2).compressAt 0) .cbuf 1).CompressingFrom (bufOf p2) ∧
      1 + 1 = (busyWith 2 ((bufOf p2).compressAt 0) .cbuf 1).cfg.units) :=
  ⟨⟨⟨rfl, rfl, by decide, by decide, fun a h => absurd h (Nat.not_lt_zero a), fun _ _ => rfl⟩, rfl, rfl, by decide⟩,
   ⟨⟨rfl, rfl, by decide, by decide, by decide, fun _ h => Memory.read_compressAt_other (.inr h)⟩, by decide⟩⟩

/-- XBUF on the compressed image of P2: before unit 1 (another follows), and before unit 0 (the last). -/
theorem witness_XbufIsSafeInPlace :
    ((busyWith 2 (bufOf p2packed) .xbuf 1).ExpandingFrom (bufOf p2packed) ∧
      (busyWith 2 (bufOf p2packed) .xbuf 1).bench = none ∧
      (busyWith 2 (bufOf p2packed) .xbuf 1).move.leavesAlone = true ∧ 0 < (busyWith 2 (bufOf p2packed) .xbuf 1).k) ∧
    ((busyWith 1 (bufOf p2packed) .xbuf 0).ExpandingFrom (bufOf p2packed) ∧
      (busyWith 1 (bufOf p2packed) .xbuf 0).k = 0) :=
  ⟨⟨⟨rfl, rfl, by decide, by decide, fun a h h' => absurd (Nat.lt_of_le_of_lt h h') (by decide), fun _ _ => rfl⟩,
      rfl, rfl, by decide⟩,
   ⟨⟨rfl, rfl, by decide, by decide, fun a h h' => absurd (Nat.lt_of_le_of_lt h h') (by decide), fun _ _ => rfl⟩,
      rfl⟩⟩

/-- An ignored `start` among the moves that leave the transcoder alone. -/
theorem witness_CbufCommandResult :
    (drivenBy (idleWith 1 (bufOf p2)) [.drive false true 0, .drive false true 1]).bench = none ∧
    (drivenBy (idleWith 1 (bufOf p2)) [.drive false true 0, .drive false true 1]).phase = .idle ∧
    (idleWith 1 (bufOf p2)).buf.wf = true ∧
    (∀ m ∈ [HostMove.drive false true 1].take (idleWith 1 (bufOf p2)).cfg.units, m.leavesAlone = true) ∧
    0 < (idleWith 1 (bufOf p2)).cfg.units := by decide

theorem witness_XbufCommandResult :
    (drivenBy (idleWith 1 (bufOf p2packed)) [.drive false true 1]).bench = none ∧
    (drivenBy (idleWith 1 (bufOf p2packed)) [.drive false true 1]).phase = .idle ∧
    (idleWith 1 (bufOf p2packed)).buf.wf = true ∧
    (∀ m ∈ ([] : List HostMove).take (idleWith 1 (bufOf p2packed)).cfg.units, m.leavesAlone = true) ∧
    0 < (idleWith 1 (bufOf p2packed)).cfg.units := by decide

/-- Every sentinel byte of P2 is in the set. -/
theorem witness_CbufThenXbufRestoresTheBuffer :
    (drivenBy (idleWith 2 (bufOf p2)) (.drive false true 0 :: (quietFor 2 ++ [.drive false true 1]))).bench = none ∧
    (drivenBy (idleWith 2 (bufOf p2)) (.drive false true 0 :: (quietFor 2 ++ [.drive false true 1]))).phase = .idle ∧
    (idleWith 2 (bufOf p2)).buf.wf = true ∧ (idleWith 2 (bufOf p2)).cfg.units = 2 ∧
    (idleWith 2 (bufOf p2)).SentinelsHold :=
  ⟨by decide, by decide, by decide, by decide, by unfold State.SentinelsHold; decide⟩

theorem witness_XbufThenCbufRestoresTheCompressedBytes :
    (drivenBy (idleWith 2 (bufOf p2packed)) (.drive false true 1 :: (quietFor 2 ++ [.drive false true 0]))).bench =
      none ∧
    (idleWith 2 (bufOf p2packed)).phase = .idle ∧ (idleWith 2 (bufOf p2packed)).buf.wf = true ∧
    (idleWith 2 (bufOf p2packed)).cfg.units = 2 ∧ 17 ∈ readOffsets .xbuf 1 ∧ 17 < 9 * 2 := by decide

/-- The three kinds of line, the first two up to the last byte. -/
theorem witness_HostScriptRunsLineByLine :
    (∀ l ∈ [ScriptLine.fill 10 [1, 2], .look 11 1, .command .cbuf, .command .xbuf],
      ∃ s : State, s.bench = none ∧ s.phase = .idle ∧ s.buf.wf = true ∧ s.inputs = l.moves s.cfg ++ []) ∧
    10 + [1, 2].length ≤ (idleWith 1 []).cfg.capacity ∧ 11 + 1 ≤ (idleWith 1 []).cfg.capacity :=
  ⟨fun l _ => ⟨drivenBy (idleWith 1 []) (l.moves (idleWith 1 []).cfg ++ []), rfl, rfl, rfl, rfl⟩, by decide, by decide⟩

theorem witness_InPlaceLoopsEqualSeparateBuffers :
    (bufOf p2).wf = true ∧ 17 < (idleWith 2 []).cfg.compressedLength ∧ (idleWith 2 []).cfg.compressedLength ≤ 18 ∧
    23 < (idleWith 2 []).cfg.capacity := by decide

theorem witness_ReversedOrdersCorrupt : 2 ≤ 2 ∧ 23 < 12 * 2 ∧ 17 < 9 * 2 := by decide

/-- CBUF before its last unit, and XBUF at its last. -/
theorem witness_ByteRequestsReplayTheUnitStep :
    (∃ t, (busyWith 2 (bufOf p2) .cbuf 0).phase = .busy ∧
      exec (commandInstr (busyWith 2 (bufOf p2) .cbuf 0).opl) (busyWith 2 (bufOf p2) .cbuf 0) = .next t ∧
      t.phase = .busy) ∧
    (∃ t, (busyWith 1 [] .xbuf 0).phase = .busy ∧ (busyWith 1 [] .xbuf 0).opl = .xbuf ∧
      exec (commandInstr (busyWith 1 [] .xbuf 0).opl) (busyWith 1 [] .xbuf 0) = .next t) :=
  ⟨⟨_, rfl, rfl, rfl⟩, ⟨_, rfl, rfl, rfl⟩⟩

/-- The highest offset a request of P2's last CBUF unit step presents is 23, with `C = 24`. -/
theorem witness_PortOffsetsStayInTheBuffer :
    (busyWith 2 (bufOf p2) .cbuf 1).Legal ∧ PortRequest.read 23 ∈ (busyWith 2 (bufOf p2) .cbuf 1).portRequests :=
  ⟨busy_legal, by decide⟩

/-- Two idle states that differ in OPL, K and EU, in a step that accepts a command. -/
theorem witness_HiddenStateIsUnobservable :
    (drivenBy (idleWith 1 []) [.drive false true 0]).SameButHidden
      { drivenBy (idleWith 1 []) [.drive false true 0] with opl := .xbuf, k := 5, eu := pk6 } ∧
    ∃ t, step (drivenBy (idleWith 1 []) [.drive false true 0]) = .next t :=
  ⟨⟨rfl, rfl, rfl, rfl, rfl, rfl, rfl, rfl, rfl, nofun, nofun⟩, _, rfl⟩

end Sys2Proof.Tests
end

section
/-! The memory port: which offsets a unit step presents, and which a whole command does (spec/20_memory.md R44, R46,
R48). -/

namespace Sys2Proof.Machine

/-- The offsets of unit `k` in a view whose units are `w` bytes wide, ascending (spec/20_memory.md R41). -/
def unitOffsets (w k : Nat) : List Nat := (List.range w).map fun j => w * k + j

/-- How many bytes a unit step of a command reads (spec/42_buffer_codec.md R112, R113). -/
def readWidth : Command → Nat
  | .cbuf => 12
  | .xbuf => 9

/-- How many bytes a unit step of a command writes (R112, R113). -/
def writeWidth : Command → Nat
  | .cbuf => 9
  | .xbuf => 12

theorem readOffsets_eq (c : Command) : readOffsets c = unitOffsets (readWidth c) := by cases c <;> rfl

theorem writeOffsets_eq (c : Command) : writeOffsets c = unitOffsets (writeWidth c) := by cases c <;> rfl

theorem mem_unitOffsets {w k a : Nat} : a ∈ unitOffsets w k ↔ w * k ≤ a ∧ a < w * k + w := by
  simp only [unitOffsets, List.mem_map, List.mem_range]
  constructor
  · rintro ⟨j, hj, rfl⟩
    omega
  · rintro ⟨hlo, hhi⟩
    exact ⟨a - w * k, by omega, by omega⟩

theorem lt_of_mem_unitOffsets {w k n a : Nat} (hk : k < n) (ha : a ∈ unitOffsets w k) : a < w * n :=
  calc a < w * k + w := (mem_unitOffsets.1 ha).2
    _ = w * (k + 1) := rfl
    _ ≤ w * n := Nat.mul_le_mul_left w hk

/-- The largest offset of the units below `n` is `wn - 1`, the last of unit `n - 1`. -/
theorem unitOffsets_largest {w n : Nat} (hw : 0 < w) (hn : 0 < n) :
    w * n - 1 ∈ unitOffsets w (n - 1) ∧ ∀ k, k < n → ∀ a ∈ unitOffsets w k, a ≤ w * n - 1 := by
  constructor
  · obtain ⟨m, rfl⟩ : ∃ m, n = m + 1 := ⟨n - 1, by omega⟩
    rw [mem_unitOffsets, Nat.add_sub_cancel, Nat.mul_succ]
    omega
  · intro k hk a ha
    exact Nat.le_sub_one_of_lt (lt_of_mem_unitOffsets hk ha)

/-- The units below `n`, in ascending order, tile `[0, wn)`. -/
theorem flatMap_unitOffsets_range (w n : Nat) : (List.range n).flatMap (unitOffsets w) = List.range (w * n) := by
  induction n with
  | zero => rfl
  | succ n ih =>
    rw [List.range_succ, List.flatMap_append, ih, List.flatMap_singleton, Nat.mul_succ, List.range_add]
    rfl

/-- Either order visits each of the `n` units once. -/
theorem unitOrder_perm (c : Command) (n : Nat) : (unitOrder c n).Perm (List.range n) := by
  cases c with
  | cbuf => exact List.Perm.refl _
  | xbuf => exact List.reverse_perm _

/-- Over a whole command each offset of `[0, wn)` comes exactly once. -/
theorem flatMap_unitOrder_perm (c : Command) (w n : Nat) :
    ((unitOrder c n).flatMap (unitOffsets w)).Perm (List.range (w * n)) := by
  rw [← flatMap_unitOffsets_range]
  exact (unitOrder_perm c n).flatMap_right _

theorem length_flatMap_unitOrder (c : Command) (w n : Nat) :
    ((unitOrder c n).flatMap (unitOffsets w)).length = w * n := by
  rw [(flatMap_unitOrder_perm c w n).length_eq, List.length_range]

theorem readWidth_add_writeWidth (c : Command) : readWidth c + writeWidth c = 21 := by cases c <;> rfl

/-- Settles O56: the units tile the two views, and each order is a permutation of the units. -/
theorem footprintOfAWholeCommand : Obligations.FootprintOfAWholeCommand := by
  unfold Obligations.FootprintOfAWholeCommand
  intro n
  simp only [readOffsets_eq, writeOffsets_eq]
  refine ⟨flatMap_unitOffsets_range 12 n, flatMap_unitOffsets_range 9 n, flatMap_unitOrder_perm .xbuf 9 n,
    flatMap_unitOrder_perm .xbuf 12 n, fun c => ?_⟩
  rw [length_flatMap_unitOrder, length_flatMap_unitOrder, ← Nat.add_mul, readWidth_add_writeWidth]

@[simp] theorem length_writeOffsets (c : Command) (k : Nat) : (writeOffsets c k).length = writeWidth c := by
  rw [writeOffsets_eq, unitOffsets, List.length_map, List.length_range]

@[simp] theorem length_unitOutput (c : Command) (m : Memory) (k : Nat) : (unitOutput c m k).length = writeWidth c := by
  cases c <;> exact Vector.length_toList

theorem State.portRequests_idle {s : State} (h : s.phase = .idle) : s.portRequests = [] := by
  simp only [State.portRequests, h]

theorem State.portRequests_busy {s : State} (h : s.phase = .busy) : s.portRequests =
    (readOffsets s.opl s.k).map .read ++
      List.zipWith .write (writeOffsets s.opl s.k) (unitOutput s.opl s.buf s.k) := by
  simp only [State.portRequests, h]

/-- Write requests present the offsets they were made from. -/
theorem map_offset_writes {as : List Nat} {ds : List Byte} (h : as.length = ds.length) :
    (List.zipWith PortRequest.write as ds).map PortRequest.offset = as := by
  rw [List.map_zipWith, ← List.map_uncurry_zip_eq_zipWith]
  exact List.map_fst_zip h.le

/-- The offsets a unit step presents: its reads, then its writes (spec/42_buffer_codec.md R127). -/
theorem State.portRequests_offsets {s : State} (h : s.phase = .busy) :
    s.portRequests.map PortRequest.offset = readOffsets s.opl s.k ++ writeOffsets s.opl s.k := by
  rw [State.portRequests_busy h, List.map_append, List.map_map, map_offset_writes (by simp)]
  congr 1
  exact List.map_id _

theorem lt_capacity_of_mem_offsets {cfg : Config} {c : Command} {k a : Nat} (hk : k < cfg.units)
    (ha : a ∈ readOffsets c k ++ writeOffsets c k) : a < cfg.capacity := by
  have inView : ∀ w ≤ 12, a ∈ unitOffsets w k → a < cfg.capacity := fun w hw h =>
    calc a < w * cfg.units := lt_of_mem_unitOffsets hk h
      _ ≤ 12 * cfg.units := Nat.mul_le_mul_right _ hw
      _ = cfg.capacity := cfg.capacity_eq.symm
  rw [List.mem_append, readOffsets_eq, writeOffsets_eq] at ha
  rcases ha with h | h
  · exact inView _ (by cases c <;> decide) h
  · exact inView _ (by cases c <;> decide) h

/-- A busy legal state works on one of the `N` units, so its requests stay in `[0, C)` (spec/20_memory.md R46). -/
theorem State.Legal.portRequest_offset_lt {s : State} (hs : s.Legal) {q : PortRequest} (hq : q ∈ s.portRequests) :
    q.offset < s.cfg.capacity := by
  cases hp : s.phase with
  | idle => simp [State.portRequests_idle hp] at hq
  | busy =>
    have ho : q.offset ∈ readOffsets s.opl s.k ++ writeOffsets s.opl s.k :=
      State.portRequests_offsets hp ▸ List.mem_map_of_mem hq
    exact lt_capacity_of_mem_offsets (hs.indexInRange hp) ho

/-- Settles O57: the bound holds in every legal state, and each command's largest offsets end unit `n - 1`. -/
theorem portOffsetsStayInTheBuffer : Obligations.PortOffsetsStayInTheBuffer := by
  unfold Obligations.PortOffsetsStayInTheBuffer
  refine ⟨fun s hs q hq => hs.portRequest_offset_lt hq, fun n hn => ?_⟩
  simp only [readOffsets_eq, writeOffsets_eq]
  exact ⟨unitOffsets_largest (by decide) hn, unitOffsets_largest (by decide) hn,
    unitOffsets_largest (by decide) hn, unitOffsets_largest (by decide) hn⟩

end Sys2Proof.Machine
end

section
/-! The SentinelCodec: its two functions and their compositions (spec/40_sentinel_codec.md R80 to R85). -/

namespace Sys2Proof.Machine

theorem isSentinel_iff {b : Byte} : isSentinel b = true ↔ b = 0x00 ∨ b = 0x7F ∨ b = 0x80 ∨ b = 0xFF := by
  simp [isSentinel, sentinelSet]

/-- Past the first three rows of the table, and only there, `enc2` answers its default (R80). -/
theorem enc2_eq_default_iff {b : Byte} : enc2 b = 0b11 ↔ b ≠ 0x00 ∧ b ≠ 0x7F ∧ b ≠ 0x80 := by
  constructor
  · intro h
    refine ⟨?_, ?_, ?_⟩ <;>
    · rintro rfl
      exact absurd h (by decide)
  · rintro ⟨h00, h7F, h80⟩
    rw [enc2, if_neg h00, if_neg h7F, if_neg h80]

/-- The byte values that give the default code are all but three. -/
theorem filter_enc2_eq_default : (Finset.range 256).filter (fun n => enc2 (BitVec.ofNat 8 n) = 0b11) =
    Finset.range 256 \ {0x00, 0x7F, 0x80} := by
  ext n
  simp only [Finset.mem_filter, Finset.mem_sdiff, Finset.mem_range, enc2_eq_default_iff]
  refine and_congr_right fun hn => ?_
  simp [← BitVec.toNat_inj, Nat.mod_eq_of_lt hn]

theorem length_filter_enc2_eq_default :
    ((List.range 256).filter fun n => enc2 (BitVec.ofNat 8 n) = 0b11).length = 253 :=
  calc ((List.range 256).filter fun n => enc2 (BitVec.ofNat 8 n) = 0b11).length
    _ = ((Finset.range 256).filter fun n => enc2 (BitVec.ofNat 8 n) = 0b11).card := rfl
    _ = (Finset.range 256 \ {0x00, 0x7F, 0x80}).card := by rw [filter_enc2_eq_default]
    _ = 256 - 3 := by rw [Finset.card_sdiff_of_subset (by simp [Finset.insert_subset_iff]), Finset.card_range]; rfl

/-- The four codes (spec/30_encoding.md R71). -/
theorem code_cases : ∀ c : Code, c = 0b00 ∨ c = 0b01 ∨ c = 0b10 ∨ c = 0b11 := by decide

@[simp] theorem enc2_dec2 (c : Code) : enc2 (dec2 c) = c := by
  rcases code_cases c with rfl | rfl | rfl | rfl <;> rfl

@[simp] theorem isSentinel_dec2 (c : Code) : isSentinel (dec2 c) = true := by
  rcases code_cases c with rfl | rfl | rfl | rfl <;> rfl

theorem dec2_injective : Function.Injective dec2 := Function.LeftInverse.injective enc2_dec2

theorem dec2_enc2_of_isSentinel {b : Byte} (h : isSentinel b = true) : dec2 (enc2 b) = b := by
  rcases isSentinel_iff.1 h with rfl | rfl | rfl | rfl <;> rfl

/-- The lossy fallback (R82): a byte outside the sentinel set is aliased to 0xFF. -/
theorem dec2_enc2_of_not_isSentinel {b : Byte} (h : ¬ isSentinel b = true) : dec2 (enc2 b) = 0xFF := by
  simp only [isSentinel_iff, not_or] at h
  obtain ⟨h00, h7F, h80, -⟩ := h
  rw [enc2_eq_default_iff.2 ⟨h00, h7F, h80⟩]
  rfl

/-- The image of `dec2` is the sentinel set, and `enc2` finds the code of each member (R81). -/
theorem isSentinel_iff_exists_code {b : Byte} : isSentinel b = true ↔ ∃ c : Code, dec2 c = b := by
  constructor
  · intro h
    exact ⟨enc2 b, dec2_enc2_of_isSentinel h⟩
  · rintro ⟨c, rfl⟩
    exact isSentinel_dec2 c

/-- Settles O5: the bytes that give the default code are those outside the first three rows. -/
theorem sentinelEncodeFollowsTheTable : Obligations.SentinelEncodeFollowsTheTable := by
  unfold Obligations.SentinelEncodeFollowsTheTable
  exact ⟨rfl, rfl, rfl, fun _ h00 h7F h80 => enc2_eq_default_iff.2 ⟨h00, h7F, h80⟩, length_filter_enc2_eq_default⟩

/-- Settles O6: `enc2` is a left inverse of `dec2`, and a right inverse on the sentinel set. -/
theorem sentinelDecodeFollowsTheTable : Obligations.SentinelDecodeFollowsTheTable := by
  unfold Obligations.SentinelDecodeFollowsTheTable
  exact ⟨rfl, rfl, rfl, rfl, fun _ _ h => dec2_injective h, fun _ => isSentinel_iff_exists_code⟩

/-- Settles O7: by whether the byte is in the sentinel set. -/
theorem sentinelRoundTripIsLossyFallback : Obligations.SentinelRoundTripIsLossyFallback := by
  unfold Obligations.SentinelRoundTripIsLossyFallback
  intro b
  split
  next h => exact dec2_enc2_of_isSentinel h
  next h => exact dec2_enc2_of_not_isSentinel h

/-- Settles O8: `enc2` is a left inverse of `dec2`, whose values are sentinels. -/
theorem codeRoundTripIsIdentity : Obligations.CodeRoundTripIsIdentity := by
  unfold Obligations.CodeRoundTripIsIdentity
  exact ⟨enc2_dec2, fun b => ⟨congrArg dec2 (enc2_dec2 (enc2 b)), isSentinel_dec2 (enc2 b)⟩⟩

end Sys2Proof.Machine
end

section
/-! The data-layout rows: what their step can do (spec/40_sentinel_codec.md R84, spec/41_unit_transcoder.md R101). -/

namespace Sys2Proof.Machine

/-- The rows of a whole unit, whose results stand in EU and CU. -/
def IsUnitRow (i : Instr) : Prop :=
  (∃ f0 f1 f2 f3, i = .compressedUnit f0 f1 f2 f3) ∨ (∃ s0 s1 s2 s3, i = .expandedUnit s0 s1 s2 s3)

/-- A unit row sets EU and CU and any other data-layout row sets `lane`, to values that depend on the row alone and not
on the state (R84, R101). -/
theorem exec_datapath_cases {i : Instr} (hc : i ≠ .cbuf) (hx : i ≠ .xbuf) :
    (IsUnitRow i ∧ ∃ u o, ∀ s, exec i s = .next (s.setStaging u o)) ∨
    (¬ IsUnitRow i ∧ ∃ r, ∀ s, exec i s = .next (s.setLane r)) := by
  cases i with
  | cbuf => exact absurd rfl hc
  | xbuf => exact absurd rfl hx
  | compressedUnit f0 f1 f2 f3 => exact .inl ⟨.inl ⟨f0, f1, f2, f3, rfl⟩, _, _, fun _ => rfl⟩
  | expandedUnit s0 s1 s2 s3 => exact .inl ⟨.inr ⟨s0, s1, s2, s3, rfl⟩, _, _, fun _ => rfl⟩
  | field | sent00 | sent7F | sent80 | sentFF | sentOther =>
    exact .inr ⟨by simp [IsUnitRow], _, fun _ => rfl⟩

/-- Settles O33: either of the two updates a data-layout row can make leaves every other field alone. -/
theorem datapathFrame : Obligations.DatapathFrame := by
  unfold Obligations.DatapathFrame
  intro i s t hc hx h
  rcases exec_datapath_cases hc hx with ⟨hunit, u, o, hexec⟩ | ⟨hlane, r, hexec⟩
  · obtain rfl : s.setStaging u o = t := Host.Outcome.next.inj ((hexec s).symm.trans h)
    refine ⟨rfl, fun _ => rfl, fun hcomp hexp => ?_⟩
    rcases hunit with ⟨f0, f1, f2, f3, hi⟩ | ⟨s0, s1, s2, s3, hi⟩
    · exact absurd hi (hcomp f0 f1 f2 f3)
    · exact absurd hi (hexp s0 s1 s2 s3)
  · obtain rfl : s.setLane r = t := Host.Outcome.next.inj ((hexec s).symm.trans h)
    exact ⟨rfl, fun hunit => absurd hunit hlane, fun _ _ => ⟨rfl, rfl⟩⟩

end Sys2Proof.Machine
end

section
/-! The UnitTranscoder lane by lane: a unit is its four samples or its four fields, and each function maps lane `i` to
lane `i` (spec/41_unit_transcoder.md R90, R92, R100). -/

namespace Sys2Proof.Machine

/-! The compressed unit, its 72-bit number and its four fields (spec/30_encoding.md R70). -/

@[simp] theorem compressedWord_compressedBytes (w : BitVec 72) : compressedWord (compressedBytes w) = w := by
  apply BitVec.eq_of_getLsbD_eq
  intro i hi
  rw [getLsbD_compressedWord _ i hi, getElem_compressedBytes, BitVec.getLsbD_extractLsb',
    show 64 - 8 * (8 - i / 8) + i % 8 = i by omega]
  simp [Nat.mod_lt]

@[simp] theorem compressedBytes_compressedWord (o : CompressedUnit) : compressedBytes (compressedWord o) = o := by
  apply Vector.ext
  intro j hj
  apply BitVec.eq_of_getLsbD_eq
  intro i hi
  rw [getElem_compressedBytes, BitVec.getLsbD_extractLsb', getLsbD_compressedWord _ _ (by omega)]
  simp [hi, show 8 - (64 - 8 * j + i) / 8 = j by omega, show (64 - 8 * j + i) % 8 = i by omega]

theorem compressedWord_injective : Function.Injective compressedWord :=
  Function.LeftInverse.injective compressedBytes_compressedWord

/-- A field of four fields laid end to end. -/
theorem fieldAt_append (f : Fin 4 → BitVec 18) (i : Fin 4) : fieldAt (f 0 ++ f 1 ++ f 2 ++ f 3) i = f i := by
  apply BitVec.eq_of_getLsbD_eq
  intro n hn
  rw [fieldAt, BitVec.getLsbD_extractLsb', getLsbD_fields]
  fin_cases i <;> grind

/-- The four fields laid end to end are the number. -/
theorem append_fieldAt (w : BitVec 72) : fieldAt w 0 ++ fieldAt w 1 ++ fieldAt w 2 ++ fieldAt w 3 = w := by
  have h01 : fieldAt w 0 ++ fieldAt w 1 = w.extractLsb' 36 36 := extract_join w
  have h02 : w.extractLsb' 36 36 ++ fieldAt w 2 = w.extractLsb' 18 54 := extract_join w
  rw [h01, h02]
  exact (extract_join w).trans (extract_all w)

/-- A compressed unit is its four fields. -/
theorem compressedUnit_eq_iff {o o' : CompressedUnit} :
    o = o' ↔ ∀ i, fieldAt (compressedWord o) i = fieldAt (compressedWord o') i := by
  constructor
  · rintro rfl i
    rfl
  · intro h
    apply compressedWord_injective
    rw [← append_fieldAt (compressedWord o), ← append_fieldAt (compressedWord o'), h, h, h, h]

/-! The expanded unit and its four samples (R68). -/

@[simp] theorem unitOfSamples_sampleAt (u : ExpandedUnit) :
    unitOfSamples (sampleAt u 0) (sampleAt u 1) (sampleAt u 2) (sampleAt u 3) = u := by
  apply Vector.ext
  intro j hj
  interval_cases j <;> rfl

/-- An expanded unit is its four samples. -/
theorem expandedUnit_eq_iff {u v : ExpandedUnit} : u = v ↔ ∀ i, sampleAt u i = sampleAt v i := by
  constructor
  · rintro rfl i
    rfl
  · intro h
    rw [← unitOfSamples_sampleAt u, ← unitOfSamples_sampleAt v, h, h, h, h]

/-! One lane (spec/41_unit_transcoder.md R100). -/

theorem code_lanePack (s : Sample) : (lanePack s).extractLsb' 16 2 = enc2 s.byte0 :=
  (extract_high (start := 16) (enc2 s.byte0 ++ s.byte1) s.byte2 (by decide)).trans
    ((extract_high (enc2 s.byte0) s.byte1 (by decide)).trans (extract_all _))

theorem payloadHigh_lanePack (s : Sample) : (lanePack s).extractLsb' 8 8 = s.byte1 :=
  (extract_high (start := 8) (enc2 s.byte0 ++ s.byte1) s.byte2 (by decide)).trans
    ((extract_low (enc2 s.byte0) s.byte1 (by decide)).trans (extract_all _))

theorem payloadLow_lanePack (s : Sample) : (lanePack s).extractLsb' 0 8 = s.byte2 :=
  (extract_low (start := 0) (enc2 s.byte0 ++ s.byte1) s.byte2 (by decide)).trans (extract_all _)

theorem laneUnpack_lanePack (s : Sample) : laneUnpack (lanePack s) = ⟨dec2 (enc2 s.byte0), s.byte1, s.byte2⟩ := by
  rw [laneUnpack, code_lanePack, payloadHigh_lanePack, payloadLow_lanePack]

@[simp] theorem lanePack_laneUnpack (f : BitVec 18) : lanePack (laneUnpack f) = f := by
  have h : f.extractLsb' 16 2 ++ f.extractLsb' 8 8 = f.extractLsb' 8 10 := extract_join f
  rw [lanePack, laneUnpack, enc2_dec2, h]
  exact (extract_join f).trans (extract_all f)

/-- A lane loses its sentinel byte up to the code, and nothing else (R98). -/
theorem lanePack_eq_iff {s t : Sample} : lanePack s = lanePack t ↔
    enc2 s.byte0 = enc2 t.byte0 ∧ s.byte1 = t.byte1 ∧ s.byte2 = t.byte2 := by
  constructor
  · intro h
    rw [← code_lanePack, ← payloadHigh_lanePack, ← payloadLow_lanePack, h, code_lanePack, payloadHigh_lanePack,
      payloadLow_lanePack]
    exact ⟨rfl, rfl, rfl⟩
  · rintro ⟨h0, h1, h2⟩
    rw [lanePack, lanePack, h0, h1, h2]

theorem dec2_enc2_eq_self_iff {b : Byte} : dec2 (enc2 b) = b ↔ isSentinel b = true :=
  ⟨fun h => h ▸ isSentinel_dec2 (enc2 b), dec2_enc2_of_isSentinel⟩

theorem laneUnpack_lanePack_eq_self_iff {s : Sample} : laneUnpack (lanePack s) = s ↔ isSentinel s.byte0 = true := by
  rw [laneUnpack_lanePack, ← dec2_enc2_eq_self_iff]
  cases s
  simp

/-! The two functions. -/

theorem compressedWord_packUnit (u : ExpandedUnit) : compressedWord (packUnit u) =
    lanePack (sampleAt u 0) ++ lanePack (sampleAt u 1) ++ lanePack (sampleAt u 2) ++ lanePack (sampleAt u 3) :=
  compressedWord_compressedBytes _

/-- Lane `i` of the packed unit is the packed lane `i` (R100). -/
@[simp] theorem fieldAt_packUnit (u : ExpandedUnit) (i : Fin 4) :
    fieldAt (compressedWord (packUnit u)) i = lanePack (sampleAt u i) := by
  rw [compressedWord_packUnit]
  exact fieldAt_append (fun i => lanePack (sampleAt u i)) i

/-- Lane `i` of the unpacked unit is the unpacked lane `i` (R100). -/
@[simp] theorem sampleAt_unpackUnit (o : CompressedUnit) (i : Fin 4) :
    sampleAt (unpackUnit o) i = laneUnpack (fieldAt (compressedWord o) i) := by
  fin_cases i <;> rfl

/-- Every unpacked unit meets the precondition (R92). -/
theorem isSentinel_sampleAt_unpackUnit (o : CompressedUnit) (i : Fin 4) :
    isSentinel (sampleAt (unpackUnit o) i).byte0 = true := by
  rw [sampleAt_unpackUnit]
  exact isSentinel_dec2 _

@[simp] theorem packUnit_unpackUnit (o : CompressedUnit) : packUnit (unpackUnit o) = o := by
  rw [compressedUnit_eq_iff]
  intro i
  rw [fieldAt_packUnit, sampleAt_unpackUnit, lanePack_laneUnpack]

theorem packUnit_eq_iff {u v : ExpandedUnit} :
    packUnit u = packUnit v ↔ ∀ i, lanePack (sampleAt u i) = lanePack (sampleAt v i) := by
  simp only [compressedUnit_eq_iff, fieldAt_packUnit]

theorem unpackUnit_packUnit_eq_self_iff {u : ExpandedUnit} :
    unpackUnit (packUnit u) = u ↔ ∀ i, isSentinel (sampleAt u i).byte0 = true := by
  simp only [expandedUnit_eq_iff, sampleAt_unpackUnit, fieldAt_packUnit, laneUnpack_lanePack_eq_self_iff]

/-- Settles O12: the sentinel bytes of the four samples are bytes 0, 3, 6 and 9. -/
theorem unitRoundTripIsExact : Obligations.UnitRoundTripIsExact := by
  unfold Obligations.UnitRoundTripIsExact
  intro u h0 h3 h6 h9
  rw [unpackUnit_packUnit_eq_self_iff]
  intro i
  fin_cases i
  exacts [h0, h3, h6, h9]

/-- Settles O13: lane by lane, and idempotent since `packUnit` undoes `unpackUnit`. -/
theorem unitRoundTripCanonicalises : Obligations.UnitRoundTripCanonicalises := by
  unfold Obligations.UnitRoundTripCanonicalises
  intro u
  refine ⟨fun i => ?_, unpackUnit_packUnit_eq_self_iff, congrArg unpackUnit (packUnit_unpackUnit _)⟩
  rw [sampleAt_unpackUnit, fieldAt_packUnit, laneUnpack_lanePack]

/-- Settles O14: `unpackUnit o` is the unit that `packUnit` takes to `o`, and the only one that meets the
precondition. -/
theorem compressedRoundTripIsIdentity : Obligations.CompressedRoundTripIsIdentity := by
  unfold Obligations.CompressedRoundTripIsIdentity
  refine ⟨packUnit_unpackUnit, fun _ _ h => Function.LeftInverse.injective packUnit_unpackUnit h, fun o =>
    ⟨unpackUnit o, packUnit_unpackUnit o, isSentinel_sampleAt_unpackUnit o, ?_⟩⟩
  rintro u rfl hu
  exact (unpackUnit_packUnit_eq_self_iff.2 hu).symm

/-- Settles O15: units pack alike when their lanes do. -/
theorem packUnitLosesOnlySentinelAliases : Obligations.PackUnitLosesOnlySentinelAliases := by
  unfold Obligations.PackUnitLosesOnlySentinelAliases
  intro u v
  rw [packUnit_eq_iff]
  exact forall_congr' fun i => lanePack_eq_iff

end Sys2Proof.Machine
end

section
/-! The UnitTranscoder byte by byte: which bits of the 72-bit number a byte of either unit holds
(spec/41_unit_transcoder.md R91, R93). -/

namespace Sys2Proof.Machine

/-! Bytes made by shifts and masks. -/

/-- The masks of the formulas drop only what the shift drops. -/
theorem and_mask_shiftLeft (a : Byte) (k : Nat) : (a &&& BitVec.allOnes 8 >>> k) <<< k = a <<< k := by
  apply BitVec.eq_of_getLsbD_eq
  intro i hi
  simp only [BitVec.getLsbD_shiftLeft, BitVec.getLsbD_and, BitVec.getLsbD_ushiftRight, BitVec.getLsbD_allOnes]
  by_cases h : i < k
  · simp [h]
  · simp [show k + (i - k) < 8 by omega]

theorem and_0x03_shiftLeft (a : Byte) : (a &&& 0x03) <<< 6 = a <<< 6 := and_mask_shiftLeft a 6

theorem and_0x0F_shiftLeft (a : Byte) : (a &&& 0x0F) <<< 4 = a <<< 4 := and_mask_shiftLeft a 4

theorem and_0x3F_shiftLeft (a : Byte) : (a &&& 0x3F) <<< 2 = a <<< 2 := and_mask_shiftLeft a 2

/-- A shifted byte over one with bits below bit `k` only. -/
theorem getLsbD_shiftLeft_or {k i : Nat} (a x : Byte) (hx : ∀ j, k ≤ j → x.getLsbD j = false) (hi : i < 8) :
    (a <<< k ||| x).getLsbD i = if i < k then x.getLsbD i else a.getLsbD (i - k) := by
  rw [BitVec.getLsbD_or, BitVec.getLsbD_shiftLeft]
  split
  next h => simp [h]
  next h => simp [h, hi, hx i (by omega), - BitVec.getLsbD_eq_getElem]

theorem getLsbD_ushiftRight_of_ge (b : Byte) {k j : Nat} (h : 8 ≤ k + j) : (b >>> k).getLsbD j = false := by
  rw [BitVec.getLsbD_ushiftRight]
  exact BitVec.getLsbD_of_ge _ _ h

/-- Two bytes spliced `k` bits from the top of the first. -/
theorem getLsbD_splice {k i : Nat} (a b : Byte) (hk : k ≤ 8) (hi : i < 8) :
    (a <<< k ||| b >>> (8 - k)).getLsbD i = if i < k then b.getLsbD (8 - k + i) else a.getLsbD (i - k) := by
  rw [getLsbD_shiftLeft_or a _ (fun j hj => getLsbD_ushiftRight_of_ge b (by omega)) hi, BitVec.getLsbD_ushiftRight]

/-- A code at bit `k`, over the high bits of a payload byte. -/
theorem getLsbD_code_or {k : Nat} (c : Code) (b : Byte) (hk : k ≤ 6) (i : Nat) :
    (c.setWidth 8 <<< k ||| b >>> (8 - k)).getLsbD i = if i < k then b.getLsbD (8 - k + i) else c.getLsbD (i - k) := by
  by_cases hi : i < 8
  · rw [getLsbD_splice _ _ (by omega) hi, BitVec.getLsbD_setWidth, decide_eq_true (by omega), Bool.true_and]
  · rw [BitVec.getLsbD_of_ge _ i (by omega), if_neg (by omega), BitVec.getLsbD_of_ge c _ (by omega)]

/-! Slices of the number. -/

/-- Bits of the number inside one field. -/
theorem getLsbD_fieldAt (w : BitVec 72) (i : Fin 4) {n : Nat} (hn : n < 18) :
    (fieldAt w i).getLsbD n = w.getLsbD (54 - 18 * i.val + n) := by
  rw [fieldAt, BitVec.getLsbD_extractLsb', decide_eq_true hn, Bool.true_and]

theorem extract_fieldAt (w : BitVec 72) (i : Fin 4) {start len : Nat} (h : start + len ≤ 18) :
    (fieldAt w i).extractLsb' start len = w.extractLsb' (54 - 18 * i.val + start) len := by
  apply BitVec.eq_of_getLsbD_eq
  intro n hn
  rw [BitVec.getLsbD_extractLsb', BitVec.getLsbD_extractLsb', getLsbD_fieldAt w i (by omega), Nat.add_assoc]

theorem getElem_eq_extract_compressedWord (o : CompressedUnit) {j : Nat} (hj : j < 9) :
    o[j] = (compressedWord o).extractLsb' (64 - 8 * j) 8 := by
  rw [← getElem_compressedBytes _ _ hj, compressedBytes_compressedWord]

/-- A slice inside byte `j`. -/
theorem extract_compressedWord_inByte (o : CompressedUnit) {j p len : Nat} (hj : j < 9) (hp : p + len ≤ 8) :
    (compressedWord o).extractLsb' (64 - 8 * j + p) len = o[j].extractLsb' p len := by
  apply BitVec.eq_of_getLsbD_eq
  intro n hn
  rw [BitVec.getLsbD_extractLsb', BitVec.getLsbD_extractLsb', getElem_eq_extract_compressedWord o hj,
    BitVec.getLsbD_extractLsb', Nat.add_assoc]
  simp [show p + n < 8 by omega]

/-- A byte that starts `k` bits below the top of byte `j`. -/
theorem extract_compressedWord_acrossBytes (o : CompressedUnit) {j k : Nat} (hj : j + 1 < 9) (hk : k ≤ 8) :
    (compressedWord o).extractLsb' (64 - 8 * j - k) 8 = o[j] <<< k ||| o[j + 1] >>> (8 - k) := by
  apply BitVec.eq_of_getLsbD_eq
  intro n hn
  rw [getLsbD_splice _ _ hk hn, getElem_eq_extract_compressedWord o hj,
    getElem_eq_extract_compressedWord o (show j < 9 by omega)]
  simp only [BitVec.getLsbD_extractLsb', hn, decide_true, Bool.true_and]
  split
  next h => simp [show 8 - k + n < 8 by omega, show 64 - 8 * (j + 1) + (8 - k + n) = 64 - 8 * j - k + n by omega]
  next h => simp [show n - k < 8 by omega, show 64 - 8 * j + (n - k) = 64 - 8 * j - k + n by omega]

/-! `packUnit`. -/

/-- A byte inside lane `i`, its lowest bit at bit `p` of the lane. -/
theorem getElem_packUnit_inLane (u : ExpandedUnit) (i : Fin 4) (p : Nat) {j : Nat} (hj : j < 9 := by decide)
    (hp : p + 8 ≤ 18 := by decide) (h : 64 - 8 * j = 54 - 18 * i.val + p := by rfl) :
    (packUnit u)[j] = (lanePack (sampleAt u i)).extractLsb' p 8 := by
  rw [← fieldAt_packUnit, extract_fieldAt _ _ hp, ← h, getElem_eq_extract_compressedWord]

/-- Eight bits of a packed lane, all of them payload. -/
theorem lanePack_slice_payload (s : Sample) (k : Nat) (hk : k ≤ 8 := by decide) :
    (lanePack s).extractLsb' (8 - k) 8 = s.byte1 <<< k ||| s.byte2 >>> (8 - k) := by
  apply BitVec.eq_of_getLsbD_eq
  intro n hn
  rw [getLsbD_splice _ _ hk hn, BitVec.getLsbD_extractLsb', getLsbD_lanePack]
  grind

/-- The top eight bits of a packed lane, the code and the payload below it. -/
theorem lanePack_slice_top (s : Sample) :
    (lanePack s).extractLsb' 10 8 = (enc2 s.byte0).setWidth 8 <<< 6 ||| s.byte1 >>> (8 - 6) := by
  apply BitVec.eq_of_getLsbD_eq
  intro n hn
  rw [getLsbD_code_or _ _ (by decide), BitVec.getLsbD_extractLsb', getLsbD_lanePack]
  grind

/-- A byte across two lanes: the low `r` bits of the one, then the code and the high bits of the payload of the
other. -/
theorem getElem_packUnit_acrossLanes (u : ExpandedUnit) (i r : Nat) {j : Nat} (hi : i + 1 < 4 := by decide)
    (hj : j < 9 := by decide) (hr : r ≤ 6 := by decide) (h : 64 - 8 * j = 46 - 18 * i + r := by rfl) :
    (packUnit u)[j] = (sampleAt u ⟨i, by omega⟩).byte2 <<< (8 - r) |||
      ((enc2 (sampleAt u ⟨i + 1, hi⟩).byte0).setWidth 8 <<< (6 - r) |||
        (sampleAt u ⟨i + 1, hi⟩).byte1 >>> (8 - (6 - r))) := by
  apply BitVec.eq_of_getLsbD_eq
  intro n hn
  rw [getElem_eq_extract_compressedWord _ hj, BitVec.getLsbD_extractLsb', h, decide_eq_true hn, Bool.true_and,
    getLsbD_shiftLeft_or _ _ _ hn, getLsbD_code_or _ _ (by omega)]
  · by_cases hlow : n < 8 - r
    · have hlane := getLsbD_fieldAt (compressedWord (packUnit u)) ⟨i + 1, hi⟩ (show 10 + r + n < 18 by omega)
      rw [fieldAt_packUnit, getLsbD_lanePack] at hlane
      grind
    · have hlane := getLsbD_fieldAt (compressedWord (packUnit u)) ⟨i, by omega⟩ (show n - (8 - r) < 18 by omega)
      rw [fieldAt_packUnit, getLsbD_lanePack] at hlane
      grind
  · intro m hm
    rw [getLsbD_code_or _ _ (by omega), if_neg (by omega)]
    exact BitVec.getLsbD_of_ge _ _ (by omega)

/-- Settles O10: bytes 2, 4 and 6 lie across two lanes, the others inside one. -/
theorem packUnitByteFormulas : Obligations.PackUnitByteFormulas := by
  unfold Obligations.PackUnitByteFormulas
  intro u c0 c1 c2 c3
  simp only [and_0x03_shiftLeft, and_0x0F_shiftLeft, and_0x3F_shiftLeft, BitVec.or_assoc]
  apply Vector.ext
  intro j hj
  interval_cases j
  · exact (getElem_packUnit_inLane u 0 10).trans (lanePack_slice_top _)
  · exact (getElem_packUnit_inLane u 0 2).trans (lanePack_slice_payload _ 6)
  · exact getElem_packUnit_acrossLanes u 0 2
  · exact (getElem_packUnit_inLane u 1 4).trans (lanePack_slice_payload _ 4)
  · exact getElem_packUnit_acrossLanes u 1 4
  · exact (getElem_packUnit_inLane u 2 6).trans (lanePack_slice_payload _ 2)
  · -- Byte 6 holds no bit of lane 3's payload: `u[10]` is shifted out.
    have hbyte : (packUnit u)[6] = u[8] <<< 2 ||| (c3 <<< 0 ||| u[10] >>> 8) := getElem_packUnit_acrossLanes u 2 6
    rw [BitVec.shiftLeft_zero, BitVec.ushiftRight_eq_zero (le_refl 8), BitVec.or_zero] at hbyte
    exact hbyte
  · exact (getElem_packUnit_inLane u 3 8).trans (payloadHigh_lanePack _)
  · exact (getElem_packUnit_inLane u 3 0).trans (payloadLow_lanePack _)

/-! `unpackUnit`. -/

/-- The code of field `i` lies inside byte `j`, its lowest bit at bit `p`. -/
theorem code_fieldAt (o : CompressedUnit) (i : Fin 4) (j p : Nat) (hj : j < 9 := by decide)
    (hp : p + 2 ≤ 8 := by decide) (h : 54 - 18 * i.val + 16 = 64 - 8 * j + p := by rfl) :
    (fieldAt (compressedWord o) i).extractLsb' 16 2 = o[j].extractLsb' p 2 := by
  rw [extract_fieldAt _ _ (by decide), h, extract_compressedWord_inByte o hj hp]

/-- A payload byte of field `i` across bytes `j` and `j + 1`. -/
theorem payload_fieldAt_acrossBytes (o : CompressedUnit) (i : Fin 4) (p j k : Nat) (hj : j + 1 < 9 := by decide)
    (hp : p + 8 ≤ 18 := by decide) (hk : k ≤ 8 := by decide) (h : 54 - 18 * i.val + p = 64 - 8 * j - k := by rfl) :
    (fieldAt (compressedWord o) i).extractLsb' p 8 = o[j] <<< k ||| o[j + 1] >>> (8 - k) := by
  rw [extract_fieldAt _ _ hp, h, extract_compressedWord_acrossBytes o hj hk]

/-- A payload byte of field `i` that is byte `j`. -/
theorem payload_fieldAt_wholeByte (o : CompressedUnit) (i : Fin 4) (p j : Nat) (hj : j < 9 := by decide)
    (hp : p + 8 ≤ 18 := by decide) (h : 54 - 18 * i.val + p = 64 - 8 * j := by rfl) :
    (fieldAt (compressedWord o) i).extractLsb' p 8 = o[j] := by
  rw [extract_fieldAt _ _ hp, h, getElem_eq_extract_compressedWord o hj]

/-- A code taken by shift and mask. -/
theorem setWidth_ushiftRight_and_0x03 (b : Byte) (p : Nat) :
    ((b >>> p) &&& 0x03).setWidth 2 = b.extractLsb' p 2 := by
  rw [BitVec.setWidth_and]
  exact BitVec.and_allOnes

/-- Settles O11: each code lies inside a byte, and each payload byte but the last two lies across two. -/
theorem unpackUnitByteFormulas : Obligations.UnpackUnitByteFormulas := by
  unfold Obligations.UnpackUnitByteFormulas
  intro o c0 c1 c2 c3
  have h0 : (fieldAt (compressedWord o) 0).extractLsb' 16 2 = c0 := code_fieldAt o 0 0 6
  have h1 : (fieldAt (compressedWord o) 1).extractLsb' 16 2 = c1 :=
    (code_fieldAt o 1 2 4).trans (setWidth_ushiftRight_and_0x03 _ 4).symm
  have h2 : (fieldAt (compressedWord o) 2).extractLsb' 16 2 = c2 :=
    (code_fieldAt o 2 4 2).trans (setWidth_ushiftRight_and_0x03 _ 2).symm
  have h3 : (fieldAt (compressedWord o) 3).extractLsb' 16 2 = c3 :=
    (code_fieldAt o 3 6 0).trans (setWidth_ushiftRight_and_0x03 _ 0).symm
  simp only [and_0x03_shiftLeft, and_0x0F_shiftLeft, and_0x3F_shiftLeft]
  rw [unpackUnit, unitOfSamples, laneUnpack, laneUnpack, laneUnpack, laneUnpack, h0, h1, h2, h3,
    payload_fieldAt_acrossBytes o 0 8 0 2, payload_fieldAt_acrossBytes o 0 0 1 2,
    payload_fieldAt_acrossBytes o 1 8 2 4, payload_fieldAt_acrossBytes o 1 0 3 4,
    payload_fieldAt_acrossBytes o 2 8 4 6, payload_fieldAt_acrossBytes o 2 0 5 6,
    payload_fieldAt_wholeByte o 3 8 7, payload_fieldAt_wholeByte o 3 0 8]

end Sys2Proof.Machine
end

section
/-! The buffer while a command works on it in place: what separate buffers would hold, unit by unit, and the source
still unread beyond them (spec/42_buffer_codec.md R116 to R119). -/

namespace Sys2Proof.Machine

variable {m source : Memory} {k n : Nat}

/-! The two views, and the buffers a separate destination would hold. -/

theorem Memory.getElem_unit_at_expanded_offset (m : Memory) (k : Nat) {j : Nat} (hj : j < 12) :
    (m.unit_at_expanded_offset k)[j] = m.read (12 * k + j) := Memory.getElem_memRead hj

theorem Memory.getElem_unit_at_compressed_offset (m : Memory) (k : Nat) {j : Nat} (hj : j < 9) :
    (m.unit_at_compressed_offset k)[j] = m.read (9 * k + j) := Memory.getElem_memRead hj

/-- Byte `j` of compressed unit `k` of the separate destination (R118). -/
theorem compressedByteOf_unit (source : Memory) (k : Nat) {j : Nat} (hj : j < 9) :
    compressedByteOf source (9 * k + j) = (packUnit (source.unit_at_expanded_offset k))[j] := by
  simp only [compressedByteOf, show (9 * k + j) / 9 = k by omega, show (9 * k + j) % 9 = j by omega]

/-- Byte `j` of expanded unit `k` of the separate destination (R119). -/
theorem expandedByteOf_unit (source : Memory) (k : Nat) {j : Nat} (hj : j < 12) :
    expandedByteOf source (12 * k + j) = (unpackUnit (source.unit_at_compressed_offset k))[j] := by
  simp only [expandedByteOf, show (12 * k + j) / 12 = k by omega, show (12 * k + j) % 12 = j by omega]

/-- A buffer that holds what CBUF makes of `source` holds, at unit `k`, its packed unit `k`. -/
theorem unit_at_compressed_offset_of_result (h : ∀ a, a < 9 * n → m.read a = compressedByteOf source a) (hk : k < n) :
    m.unit_at_compressed_offset k = packUnit (source.unit_at_expanded_offset k) := by
  apply Vector.ext
  intro j hj
  rw [Memory.getElem_unit_at_compressed_offset m k hj, h _ (by omega), compressedByteOf_unit source k hj]

/-- A buffer that holds what XBUF makes of `source` holds, at unit `k`, its unpacked unit `k`. -/
theorem unit_at_expanded_offset_of_result (h : ∀ a, a < 12 * n → m.read a = expandedByteOf source a) (hk : k < n) :
    m.unit_at_expanded_offset k = unpackUnit (source.unit_at_compressed_offset k) := by
  apply Vector.ext
  intro j hj
  rw [Memory.getElem_unit_at_expanded_offset m k hj, h _ (by omega), expandedByteOf_unit source k hj]

/-! CBUF, ascending. -/

/-- The units below `k` are compressed, and every byte from `9k` on is still the source's (R116). -/
structure Memory.CompressedBelow (m source : Memory) (k : Nat) : Prop where
  canonical : m.wf = true
  written : ∀ a, a < 9 * k → m.read a = compressedByteOf source a
  unread : ∀ a, 9 * k ≤ a → m.read a = source.read a

theorem Memory.CompressedBelow.zero (h : m.wf = true) : m.CompressedBelow m 0 :=
  ⟨h, fun a ha => absurd ha (Nat.not_lt_zero a), fun _ _ => rfl⟩

/-- The unit read next lies at `12k`, past the `9k` bytes written (R116). -/
theorem Memory.CompressedBelow.next_unit (h : m.CompressedBelow source k) :
    m.unit_at_expanded_offset k = source.unit_at_expanded_offset k :=
  Memory.unit_at_expanded_offset_congr fun a ha _ => h.unread a (by omega)

theorem Memory.CompressedBelow.compressAt (h : m.CompressedBelow source k) :
    (m.compressAt k).CompressedBelow source (k + 1) where
  canonical := Memory.wf_compressAt h.canonical
  written a ha := by
    rcases Nat.lt_or_ge a (9 * k) with hlt | hge
    · rw [Memory.read_compressAt_other (.inl hlt), h.written a hlt]
    · obtain ⟨j, rfl⟩ := Nat.exists_eq_add_of_le hge
      have hj : j < 9 := by omega
      rw [Memory.read_compressAt h.canonical j hj, compressedByteOf_unit source k hj, h.next_unit]
  unread a ha := by rw [Memory.read_compressAt_other (.inr ha), h.unread a (by omega)]

/-! XBUF, descending. -/

/-- The units from `k` on are expanded up to offset `c`, and every byte below `12k` is still the source's (R117). -/
structure Memory.ExpandedFromUnit (m source : Memory) (c k : Nat) : Prop where
  canonical : m.wf = true
  written : ∀ a, 12 * k ≤ a → a < c → m.read a = expandedByteOf source a
  unread : ∀ a, a < 12 * k → m.read a = source.read a

theorem Memory.ExpandedFromUnit.all {c : Nat} (h : m.wf = true) (hk : c = 12 * k) : m.ExpandedFromUnit m c k :=
  ⟨h, fun a hlo hhi => absurd hlo (by omega), fun _ _ => rfl⟩

/-- The unit read next lies below `9k + 9`, under the bytes written from `12k + 12` on (R117). -/
theorem Memory.ExpandedFromUnit.next_unit {c : Nat} (h : m.ExpandedFromUnit source c (k + 1)) :
    m.unit_at_compressed_offset k = source.unit_at_compressed_offset k :=
  Memory.unit_at_compressed_offset_congr fun a _ ha => h.unread a (by omega)

theorem Memory.ExpandedFromUnit.expandAt {c : Nat} (h : m.ExpandedFromUnit source c (k + 1)) :
    (m.expandAt k).ExpandedFromUnit source c k where
  canonical := Memory.wf_expandAt h.canonical
  written a ha hc := by
    rcases Nat.lt_or_ge a (12 * k + 12) with hlt | hge
    · obtain ⟨j, rfl⟩ := Nat.exists_eq_add_of_le ha
      have hj : j < 12 := by omega
      rw [Memory.read_expandAt h.canonical j hj, expandedByteOf_unit source k hj, h.next_unit]
    · rw [Memory.read_expandAt_other (.inr hge), h.written a hge hc]
  unread a ha := by rw [Memory.read_expandAt_other (.inl ha), h.unread a (by omega)]

end Sys2Proof.Machine
end

section
/-! What the coming step does in IDLE under a `start` and in BUSY when left alone, and the unit steps
(spec/42_buffer_codec.md R112, R113, R124). -/

namespace Sys2Proof.Machine

variable {s t : State} {c : Command} {i : Instr} {source : Memory}

/-! The data movement of a unit step and the two completions, field by field. -/

@[simp] theorem State.compressUnitAtK_phase : s.compressUnitAtK.phase = s.phase := by simp [State.compressUnitAtK]
@[simp] theorem State.compressUnitAtK_opl : s.compressUnitAtK.opl = s.opl := by simp [State.compressUnitAtK]
@[simp] theorem State.compressUnitAtK_k : s.compressUnitAtK.k = s.k := by simp [State.compressUnitAtK]
@[simp] theorem State.compressUnitAtK_len : s.compressUnitAtK.len = s.len := by simp [State.compressUnitAtK]
@[simp] theorem State.compressUnitAtK_done : s.compressUnitAtK.done = s.done := by simp [State.compressUnitAtK]
@[simp] theorem State.compressUnitAtK_cfg : s.compressUnitAtK.cfg = s.cfg := by simp [State.compressUnitAtK]
@[simp] theorem State.compressUnitAtK_inputs : s.compressUnitAtK.inputs = s.inputs := by simp [State.compressUnitAtK]
@[simp] theorem State.compressUnitAtK_bench : s.compressUnitAtK.bench = s.bench := by simp [State.compressUnitAtK]
@[simp] theorem State.compressUnitAtK_eu : s.compressUnitAtK.eu = s.buf.unit_at_expanded_offset s.k := by
  simp [State.compressUnitAtK]
@[simp] theorem State.compressUnitAtK_cu : s.compressUnitAtK.cu = packUnit (s.buf.unit_at_expanded_offset s.k) := by
  simp [State.compressUnitAtK]
@[simp] theorem State.compressUnitAtK_buf : s.compressUnitAtK.buf = s.buf.compressAt s.k := by
  simp [State.compressUnitAtK]

@[simp] theorem State.expandUnitAtK_phase : s.expandUnitAtK.phase = s.phase := by simp [State.expandUnitAtK]
@[simp] theorem State.expandUnitAtK_opl : s.expandUnitAtK.opl = s.opl := by simp [State.expandUnitAtK]
@[simp] theorem State.expandUnitAtK_k : s.expandUnitAtK.k = s.k := by simp [State.expandUnitAtK]
@[simp] theorem State.expandUnitAtK_len : s.expandUnitAtK.len = s.len := by simp [State.expandUnitAtK]
@[simp] theorem State.expandUnitAtK_done : s.expandUnitAtK.done = s.done := by simp [State.expandUnitAtK]
@[simp] theorem State.expandUnitAtK_cfg : s.expandUnitAtK.cfg = s.cfg := by simp [State.expandUnitAtK]
@[simp] theorem State.expandUnitAtK_inputs : s.expandUnitAtK.inputs = s.inputs := by simp [State.expandUnitAtK]
@[simp] theorem State.expandUnitAtK_bench : s.expandUnitAtK.bench = s.bench := by simp [State.expandUnitAtK]
@[simp] theorem State.expandUnitAtK_eu : s.expandUnitAtK.eu = unpackUnit (s.buf.unit_at_compressed_offset s.k) := by
  simp [State.expandUnitAtK]
@[simp] theorem State.expandUnitAtK_cu : s.expandUnitAtK.cu = s.buf.unit_at_compressed_offset s.k := by
  simp [State.expandUnitAtK]
@[simp] theorem State.expandUnitAtK_buf : s.expandUnitAtK.buf = s.buf.expandAt s.k := by simp [State.expandUnitAtK]

@[simp] theorem State.completeCbuf_phase : s.completeCbuf.phase = .idle := by simp [State.completeCbuf]
@[simp] theorem State.completeCbuf_eu : s.completeCbuf.eu = s.eu := by simp [State.completeCbuf]
@[simp] theorem State.completeCbuf_cu : s.completeCbuf.cu = s.cu := by simp [State.completeCbuf]
@[simp] theorem State.completeCbuf_cfg : s.completeCbuf.cfg = s.cfg := by simp [State.completeCbuf]
@[simp] theorem State.completeCbuf_inputs : s.completeCbuf.inputs = s.inputs := by simp [State.completeCbuf]
@[simp] theorem State.completeCbuf_bench : s.completeCbuf.bench = s.bench := by simp [State.completeCbuf]
@[simp] theorem State.completeCbuf_len : s.completeCbuf.len = s.cfg.compressedLength := by
  simp [State.completeCbuf, resultLength]
@[simp] theorem State.completeCbuf_done : s.completeCbuf.done = true := by simp [State.completeCbuf]
@[simp] theorem State.completeCbuf_buf : s.completeCbuf.buf =
    s.buf.forget s.draws s.cfg.compressedLength (s.cfg.capacity - s.cfg.compressedLength) := by simp [State.completeCbuf]

@[simp] theorem State.completeXbuf_phase : s.completeXbuf.phase = .idle := by simp [State.completeXbuf]
@[simp] theorem State.completeXbuf_eu : s.completeXbuf.eu = s.eu := by simp [State.completeXbuf]
@[simp] theorem State.completeXbuf_cu : s.completeXbuf.cu = s.cu := by simp [State.completeXbuf]
@[simp] theorem State.completeXbuf_cfg : s.completeXbuf.cfg = s.cfg := by simp [State.completeXbuf]
@[simp] theorem State.completeXbuf_inputs : s.completeXbuf.inputs = s.inputs := by simp [State.completeXbuf]
@[simp] theorem State.completeXbuf_bench : s.completeXbuf.bench = s.bench := by simp [State.completeXbuf]
@[simp] theorem State.completeXbuf_len : s.completeXbuf.len = s.cfg.capacity := by
  simp [State.completeXbuf, resultLength]
@[simp] theorem State.completeXbuf_done : s.completeXbuf.done = true := by simp [State.completeXbuf]
@[simp] theorem State.completeXbuf_buf : s.completeXbuf.buf = s.buf := by simp [State.completeXbuf]

theorem step_of_action_run (h : s.action = .run i) : step s = exec i s.sampled := by
  rw [step, h]

/-- In BUSY the command in OPL runs, whatever the ports say short of reset (R124). -/
theorem State.action_busy (hb : s.bench = none) (hp : s.phase = .busy) (hm : s.move.leavesAlone = true) :
    s.action = .run (commandInstr s.opl) := by
  unfold State.action
  rw [hb]
  cases hmove : s.move with
  | drive rst start op =>
    obtain rfl : rst = false := by simpa [hmove, HostMove.leavesAlone] using hm
    simp [State.portAction, hp]
  | read a => simp [hmove, HostMove.leavesAlone] at hm
  | write a d => simp [hmove, HostMove.leavesAlone] at hm

/-- In IDLE a `start` runs the command on `op` (R124). -/
theorem State.action_start {op : BitVec 1} {r : List HostMove} (hb : s.bench = none) (hp : s.phase = .idle)
    (hi : s.inputs = .drive false true op :: r) : s.action = .run (decodeOp op) := by
  simp [State.action, State.move, State.portAction, hb, hp, hi]

theorem decodeOp_opOf (c : Command) : decodeOp (opOf c) = commandInstr c := by cases c <;> rfl

/-- CMD1 has no other value (spec/30_encoding.md R65). -/
theorem exists_opOf_eq (op : BitVec 1) : ∃ c, opOf c = op := by
  have h : ∀ op : BitVec 1, op = opOf .cbuf ∨ op = opOf .xbuf := by decide
  rcases h op with rfl | rfl
  exacts [⟨.cbuf, rfl⟩, ⟨.xbuf, rfl⟩]

/-! Acceptance. -/

/-- Acceptance of either command where there is a unit. -/
theorem exec_accept (hp : s.phase = .idle) (hu : 0 < s.cfg.units) : exec (commandInstr c) s =
    .next { s with phase := .busy, opl := c, k := firstIndex s.cfg c, done := false } := by
  cases c with
  | cbuf => exact (execCbuf_eq s).trans (by rw [hp, State.acceptCbuf_units hu]; rfl)
  | xbuf => exact (execXbuf_eq s).trans (by rw [hp, State.acceptXbuf_units hu]; rfl)

/-- With N = 0 either command completes at acceptance, with `LEN = 0`, and no byte of BUF changes. -/
theorem exec_accept_empty (hp : s.phase = .idle) (hu : s.cfg.units = 0) : ∃ t, exec (commandInstr c) s = .next t ∧
    t.phase = .idle ∧ t.done = true ∧ t.len = 0 ∧ ∀ a, t.buf.read a = s.buf.read a := by
  have hcap := s.cfg.capacity_eq
  have hlen := s.cfg.compressedLength_eq
  rw [hu, Nat.mul_zero] at hcap hlen
  cases c with
  | cbuf =>
    refine ⟨((s.markAccepted .cbuf).setIndex 0).completeCbuf,
      (execCbuf_eq s).trans (by rw [hp, State.acceptCbuf_empty hu]), rfl, rfl, hlen, fun a => ?_⟩
    exact Memory.read_forget_other (.inr (by simp [hcap, hlen]))
  | xbuf =>
    exact ⟨((s.markAccepted .xbuf).setIndex 0).completeXbuf,
      (execXbuf_eq s).trans (by rw [hp, State.acceptXbuf_empty hu]), rfl, rfl, hcap, fun _ => rfl⟩

/-- Settles O20: by whether the transcoder is idle, and whether it has a unit. -/
theorem startIsAcceptedWhenIdleAndIgnoredWhenBusy : Obligations.StartIsAcceptedWhenIdleAndIgnoredWhenBusy := by
  unfold Obligations.StartIsAcceptedWhenIdleAndIgnoredWhenBusy
  intro s op r hb hi
  obtain ⟨c, rfl⟩ := exists_opOf_eq op
  have hstart : s.phase = .idle → step s = exec (commandInstr c) s.sampled := fun hp => by
    rw [step_of_action_run (State.action_start hb hp hi), decodeOp_opOf]
  refine ⟨fun hp hu => ?_, fun hp hu => ?_, fun hp => ?_⟩
  · rw [hstart hp, exec_accept (by simpa using hp) (by simpa using hu), State.sampled_ports hb, hi]
    cases c <;> rfl
  · obtain ⟨t, ht, hphase, hdone, hlen, hbuf⟩ :=
      exec_accept_empty (s := s.sampled) (c := c) (by simpa using hp) (by simpa using hu)
    exact ⟨t, (hstart hp).trans ht, hphase, hdone, hlen, by simpa using hbuf⟩
  · have hm : s.move.leavesAlone = true := by simp [State.move, hi, HostMove.leavesAlone]
    rw [step_of_action_run (State.action_busy hb hp hm),
      step_of_action_run (State.action_busy (s := { s with inputs := quiet :: r }) hb hp rfl),
      State.sampled_ports hb, State.sampled_ports (s := { s with inputs := quiet :: r }) hb, hi]
    rfl

/-! The unit steps. -/

theorem exec_cbuf_busy (hp : s.phase = .busy) (hc : s.opl = .cbuf) : exec .cbuf s = .next s.cbufUnitStep :=
  (execCbuf_eq s).trans (by rw [hp, hc])

theorem exec_xbuf_busy (hp : s.phase = .busy) (hc : s.opl = .xbuf) : exec .xbuf s = .next s.xbufUnitStep :=
  (execXbuf_eq s).trans (by rw [hp, hc])

theorem State.cbufUnitStep_last (h : s.k = s.cfg.units - 1) : s.cbufUnitStep = s.compressUnitAtK.completeCbuf := if_pos h

theorem State.cbufUnitStep_next (h : s.k ≠ s.cfg.units - 1) :
    s.cbufUnitStep = s.compressUnitAtK.setIndex (s.k + 1) := if_neg h

theorem State.xbufUnitStep_last (h : s.k = 0) : s.xbufUnitStep = s.expandUnitAtK.completeXbuf := if_pos h

theorem State.xbufUnitStep_next (h : s.k ≠ 0) : s.xbufUnitStep = s.expandUnitAtK.setIndex (s.k - 1) := if_neg h

theorem State.cbufUnitStep_eu : s.cbufUnitStep.eu = s.buf.unit_at_expanded_offset s.k := by
  unfold State.cbufUnitStep
  split <;> simp

theorem State.cbufUnitStep_cu : s.cbufUnitStep.cu = packUnit s.cbufUnitStep.eu := by
  unfold State.cbufUnitStep
  split <;> simp

theorem State.xbufUnitStep_cu : s.xbufUnitStep.cu = s.buf.unit_at_compressed_offset s.k := by
  unfold State.xbufUnitStep
  split <;> simp

theorem State.xbufUnitStep_eu : s.xbufUnitStep.eu = unpackUnit s.xbufUnitStep.cu := by
  unfold State.xbufUnitStep
  split <;> simp

/-- A CBUF unit step leaves the packed units up to K in BUF: completion frees bytes past them only. -/
theorem State.read_cbufUnitStep {a : Nat} (ha : a < 9 * (s.k + 1)) :
    s.cbufUnitStep.buf.read a = (s.buf.compressAt s.k).read a := by
  by_cases hk : s.k = s.cfg.units - 1
  · rw [State.cbufUnitStep_last hk, State.completeCbuf_buf, State.compressUnitAtK_buf, State.compressUnitAtK_cfg]
    apply Memory.read_forget_other
    rw [s.cfg.capacity_eq, s.cfg.compressedLength_eq]
    omega
  · rw [State.cbufUnitStep_next hk, State.setIndex_buf, State.compressUnitAtK_buf]

theorem State.xbufUnitStep_buf : s.xbufUnitStep.buf = s.buf.expandAt s.k := by
  unfold State.xbufUnitStep
  split <;> simp

/-- Of either command the ranges a unit step reads and writes start at `12k` and `9k`: they meet for `k < 3` only. -/
theorem exists_read_and_written_iff (c : Command) (k : Nat) :
    (∃ a ∈ readOffsets c k, a ∈ writeOffsets c k) ↔ k < 3 := by
  simp only [readOffsets_eq, writeOffsets_eq, mem_unitOffsets]
  cases c <;> simp only [readWidth, writeWidth] <;> constructor
  case cbuf.mpr | xbuf.mpr => exact fun h => ⟨12 * k, by omega, by omega⟩
  all_goals
    rintro ⟨a, _, _⟩
    omega

/-- Settles O23: by whether unit K is the last. -/
theorem cbufUnitStepPacksOneUnit : Obligations.CbufUnitStepPacksOneUnit := by
  unfold Obligations.CbufUnitStepPacksOneUnit
  refine ⟨fun s hp hc hwf => ⟨_, exec_cbuf_busy hp hc, State.cbufUnitStep_eu, State.cbufUnitStep_cu, fun j hj => ?_,
    fun hk => ?_, fun hk => ?_⟩, exists_read_and_written_iff .cbuf⟩
  · simp only [State.read_cbufUnitStep (show 9 * s.k + j < 9 * (s.k + 1) by omega), Memory.read_compressAt hwf j hj,
      State.cbufUnitStep_cu, State.cbufUnitStep_eu]
  · simp [State.cbufUnitStep_last hk]
  · simp [State.cbufUnitStep_next hk, hp, hc]

/-- Settles O24: by whether unit K is the last. -/
theorem xbufUnitStepUnpacksOneUnit : Obligations.XbufUnitStepUnpacksOneUnit := by
  unfold Obligations.XbufUnitStepUnpacksOneUnit
  refine ⟨fun s hp hc hwf => ⟨_, exec_xbuf_busy hp hc, State.xbufUnitStep_cu, State.xbufUnitStep_eu, fun j hj => ?_,
    fun hk => ?_, fun hk => ?_⟩, exists_read_and_written_iff .xbuf⟩
  · simp only [State.xbufUnitStep_buf, Memory.read_expandAt hwf j hj, State.xbufUnitStep_eu, State.xbufUnitStep_cu]
  · simp [State.xbufUnitStep_last hk]
  · simp [State.xbufUnitStep_next hk, hp, hc]

/-- A step of CBUF that sets DONE has completed the command. -/
theorem len_of_cbuf_completes (hs : s.done = false) (h : exec .cbuf s = .next t) (ht : t.done = true) :
    t.len = s.cfg.compressedLength := by
  rcases execCbuf_cases h with ⟨_, _, rfl⟩ | ⟨_, _, rfl⟩ | ⟨_, _, _, rfl⟩ | ⟨_, _, _, rfl⟩ | ⟨_, _, rfl⟩
  case inl => cases ht
  case inr.inl | inr.inr.inl => simp
  all_goals simp [hs] at ht

/-- A step of XBUF that sets DONE has completed the command. -/
theorem len_of_xbuf_completes (hs : s.done = false) (h : exec .xbuf s = .next t) (ht : t.done = true) :
    t.len = s.cfg.capacity := by
  rcases execXbuf_cases h with ⟨_, _, rfl⟩ | ⟨_, _, rfl⟩ | ⟨_, _, _, rfl⟩ | ⟨_, _, _, rfl⟩ | ⟨_, _, rfl⟩
  case inl => cases ht
  case inr.inl | inr.inr.inl => simp
  all_goals simp [hs] at ht

/-- Settles O25: the length is the one completion writes, and `C = 12N`. -/
theorem lengthsFollowTheSizeLaw : Obligations.LengthsFollowTheSizeLaw := by
  unfold Obligations.LengthsFollowTheSizeLaw
  refine ⟨fun s t hs h ht => ?_, fun s t hs h ht => ?_⟩
  · rw [len_of_cbuf_completes hs h ht, s.cfg.capacity_eq, s.cfg.compressedLength_eq]
    omega
  · rw [len_of_xbuf_completes hs h ht]
    exact ⟨rfl, s.cfg.capacity_eq⟩

/-! Either command in progress on a source buffer: its unit step keeps the invariant up to completion (R116, R117). -/

theorem State.CompressingFrom.compressedBelow (h : s.CompressingFrom source) : s.buf.CompressedBelow source s.k :=
  ⟨h.canonical, h.written, h.unread⟩

theorem State.CompressingFrom.sampled (h : s.CompressingFrom source) : s.sampled.CompressingFrom source := by
  obtain ⟨hp, hc, hk, hwf, hw, hu⟩ := h
  constructor <;> simpa

theorem State.CompressingFrom.unitStep_next (h : s.CompressingFrom source) (hk : s.k + 1 < s.cfg.units) :
    s.cbufUnitStep.CompressingFrom source ∧ s.cbufUnitStep.k = s.k + 1 := by
  obtain ⟨hwf, hw, hu⟩ := h.compressedBelow.compressAt
  rw [State.cbufUnitStep_next (by omega)]
  exact ⟨⟨by simp [h.busy], by simp [h.command], by simpa using hk, by simpa using hwf, by simpa using hw,
    by simpa using hu⟩, State.setIndex_k _ _⟩

theorem State.CompressingFrom.unitStep_last (h : s.CompressingFrom source) (hk : s.k + 1 = s.cfg.units) :
    s.cbufUnitStep.CompressedFrom source := by
  have hlast : s.cbufUnitStep = s.compressUnitAtK.completeCbuf := State.cbufUnitStep_last (by omega)
  refine ⟨by simp [hlast, State.endOfRun], by simp [hlast], fun a ha => ?_⟩
  have ha : a < 9 * (s.k + 1) := by simpa [hlast, hk, Config.compressedLength_eq] using ha
  rw [State.read_cbufUnitStep ha, h.compressedBelow.compressAt.written a ha]

theorem State.ExpandingFrom.expandedFromUnit (h : s.ExpandingFrom source) :
    s.buf.ExpandedFromUnit source s.cfg.capacity (s.k + 1) :=
  ⟨h.canonical, h.written, h.unread⟩

theorem State.ExpandingFrom.sampled (h : s.ExpandingFrom source) : s.sampled.ExpandingFrom source := by
  obtain ⟨hp, hc, hk, hwf, hw, hu⟩ := h
  constructor <;> simpa

theorem State.ExpandingFrom.unitStep_next (h : s.ExpandingFrom source) (hk : 0 < s.k) :
    s.xbufUnitStep.ExpandingFrom source ∧ s.xbufUnitStep.k = s.k - 1 := by
  have hbuf : (s.buf.expandAt s.k).ExpandedFromUnit source s.cfg.capacity (s.k - 1 + 1) := by
    rw [Nat.sub_add_cancel hk]
    exact h.expandedFromUnit.expandAt
  rw [State.xbufUnitStep_next (by omega)]
  have hindex : s.k - 1 < s.cfg.units := (Nat.sub_le _ _).trans_lt h.index
  obtain ⟨hwf, hw, hu⟩ := hbuf
  exact ⟨⟨by simp [h.busy], by simp [h.command], by simpa using hindex, by simpa using hwf, by simpa using hw,
    by simpa using hu⟩, State.setIndex_k _ _⟩

theorem State.ExpandingFrom.unitStep_last (h : s.ExpandingFrom source) (hk : s.k = 0) :
    s.xbufUnitStep.ExpandedFrom source := by
  have hw := h.expandedFromUnit.expandAt.written
  rw [State.xbufUnitStep_last hk]
  refine ⟨by simp [State.endOfRun], by simp, fun a ha => ?_⟩
  simp only [State.completeXbuf_cfg, State.expandUnitAtK_cfg] at ha
  simpa using hw a (by omega) ha

/-- The step of CBUF in progress, left alone by the host, is its unit step. -/
theorem State.CompressingFrom.step_eq (h : s.CompressingFrom source) (hb : s.bench = none)
    (hm : s.move.leavesAlone = true) : step s = .next s.sampled.cbufUnitStep := by
  rw [step_of_action_run (State.action_busy hb h.busy hm), h.command]
  exact exec_cbuf_busy h.sampled.busy h.sampled.command

/-- The step of XBUF in progress, left alone by the host, is its unit step. -/
theorem State.ExpandingFrom.step_eq (h : s.ExpandingFrom source) (hb : s.bench = none)
    (hm : s.move.leavesAlone = true) : step s = .next s.sampled.xbufUnitStep := by
  rw [step_of_action_run (State.action_busy hb h.busy hm), h.command]
  exact exec_xbuf_busy h.sampled.busy h.sampled.command

/-- Settles O46: the bytes a CBUF step writes lie below every byte still to be read. -/
theorem cbufIsSafeInPlace : Obligations.CbufIsSafeInPlace := by
  unfold Obligations.CbufIsSafeInPlace
  intro source s h hb hm
  refine ⟨_, h.step_eq hb hm, ?_, fun hk => ?_, fun hk => ?_⟩
  · rw [State.cbufUnitStep_eu, h.sampled.compressedBelow.next_unit, State.sampled_k]
  · simpa using h.sampled.unitStep_next (by simpa using hk)
  · exact h.sampled.unitStep_last (by simpa using hk)

/-- In ascending order, a step on unit 0 of this buffer changes byte 10, in compressed unit 1. -/
theorem expandAt_zero_changes_unit_one :
    (Memory.expandAt [(7, 1)] 0).unit_at_compressed_offset 1 ≠ Memory.unit_at_compressed_offset [(7, 1)] 1 := by
  decide

/-- Settles O47: the bytes an XBUF step writes lie above every byte still to be read. -/
theorem xbufIsSafeInPlace : Obligations.XbufIsSafeInPlace := by
  unfold Obligations.XbufIsSafeInPlace
  refine ⟨fun source s h hb hm => ⟨_, h.step_eq hb hm, ?_, fun hk => ?_, fun hk => ?_⟩,
    fun m hm j hj => ?_, [(7, 1)], by decide, expandAt_zero_changes_unit_one⟩
  · rw [State.xbufUnitStep_cu, h.sampled.expandedFromUnit.next_unit, State.sampled_k]
  · simpa using h.sampled.unitStep_next (by simpa using hk)
  · exact h.sampled.unitStep_last (by simpa using hk)
  · simpa using Memory.read_expandAt (k := 0) hm (9 + j) (by omega)

end Sys2Proof.Machine
end

section
/-! Whole commands, one after the other: acceptance, N unit steps and completion, for either command at once
(spec/42_buffer_codec.md R114, R118, R119, R122, R123). -/

namespace Sys2Proof.Machine

variable {s t u : State} {c : Command} {i : Instr} {source m : Memory} {cfg : Config} {l r : List HostMove} {j k n : Nat}

/-- Command `c` is in progress on `source`. -/
def State.Running : Command → Memory → State → Prop
  | .cbuf => State.CompressingFrom
  | .xbuf => State.ExpandingFrom

/-- Command `c` has completed on `source`. -/
def State.Finished : Command → Memory → State → Prop
  | .cbuf => State.CompressedFrom
  | .xbuf => State.ExpandedFrom

/-- The unit of a command's `j`-th unit step, of `n` (R114). -/
def unitIndex : Command → Nat → Nat → Nat
  | .cbuf, _, j => j
  | .xbuf, n, j => n - 1 - j

theorem firstIndex_eq (cfg : Config) (c : Command) : firstIndex cfg c = unitIndex c cfg.units 0 := by cases c <;> rfl

/-- What a run carries from step to step beside the command: the capacity, the moves to come, and BUF canonical. -/
structure State.Ready (s : State) (cfg : Config) (l : List HostMove) : Prop where
  bench : s.bench = none
  config : s.cfg = cfg
  moves : s.inputs = l
  canonical : s.buf.wf = true

/-! What every instruction keeps. -/

/-- No instruction changes the capacity, the moves to come, or the bench. -/
theorem exec_frame (h : exec i s = .next t) : t.cfg = s.cfg ∧ t.inputs = s.inputs ∧ t.bench = s.bench := by
  by_cases hc : i = .cbuf
  · subst hc
    rcases execCbuf_cases h with ⟨_, _, rfl⟩ | ⟨_, _, rfl⟩ | ⟨_, _, _, rfl⟩ | ⟨_, _, _, rfl⟩ | ⟨_, _, rfl⟩ <;> simp
  by_cases hx : i = .xbuf
  · subst hx
    rcases execXbuf_cases h with ⟨_, _, rfl⟩ | ⟨_, _, rfl⟩ | ⟨_, _, _, rfl⟩ | ⟨_, _, _, rfl⟩ | ⟨_, _, rfl⟩ <;> simp
  rcases exec_datapath_cases hc hx with ⟨_, _, _, hexec⟩ | ⟨_, _, hexec⟩
  all_goals
    obtain rfl := Host.Outcome.next.inj ((hexec s).symm.trans h)
    exact ⟨rfl, rfl, rfl⟩

/-- Every instruction keeps BUF canonical. -/
theorem exec_keeps_wf (h : exec i s = .next t) (hs : s.buf.wf = true) : t.buf.wf = true := by
  by_cases hc : i = .cbuf
  · subst hc
    rcases execCbuf_cases h with ⟨_, _, rfl⟩ | ⟨_, _, rfl⟩ | ⟨_, _, _, rfl⟩ | ⟨_, _, _, rfl⟩ | ⟨_, _, rfl⟩ <;>
      simp [hs, Memory.wf_forget, Memory.wf_compressAt]
  by_cases hx : i = .xbuf
  · subst hx
    rcases execXbuf_cases h with ⟨_, _, rfl⟩ | ⟨_, _, rfl⟩ | ⟨_, _, _, rfl⟩ | ⟨_, _, _, rfl⟩ | ⟨_, _, rfl⟩ <;>
      simp [hs, Memory.wf_expandAt]
  rcases exec_datapath_cases hc hx with ⟨_, _, _, hexec⟩ | ⟨_, _, hexec⟩
  all_goals
    obtain rfl := Host.Outcome.next.inj ((hexec s).symm.trans h)
    exact hs

theorem State.Ready.of_exec (h : s.Ready cfg l) (he : exec i s.sampled = .next t) : t.Ready cfg l.tail := by
  obtain ⟨hb, hcfg, hmoves, hwf⟩ := h
  obtain ⟨htcfg, htmoves, htb⟩ := exec_frame he
  refine ⟨?_, ?_, ?_, exec_keeps_wf he (by simpa using hwf)⟩
  · rw [htb, State.sampled_bench]
  · rw [htcfg, State.sampled_cfg, hcfg]
  · rw [htmoves, State.sampled_inputs hb, hmoves]

/-! The three kinds of step of a command. -/

theorem endOfRun_iff : s.endOfRun = true ↔ s.phase = .idle ∧ s.done = true := by simp [State.endOfRun]

theorem State.Ready.step_start (h : s.Ready cfg (.drive false true (opOf c) :: r)) (hp : s.phase = .idle) :
    step s = exec (commandInstr c) s.sampled := by
  rw [step_of_action_run (State.action_start h.bench hp h.moves), decodeOp_opOf]

/-- The step that accepts `c` where there is a unit: `c` is in progress at its first unit. -/
theorem State.Ready.start (h : s.Ready cfg (.drive false true (opOf c) :: r)) (hp : s.phase = .idle)
    (hu : 0 < cfg.units) : ∃ t, step s = .next t ∧ t.Running c s.buf ∧ t.k = unitIndex c cfg.units 0 ∧ t.Ready cfg r := by
  obtain rfl := h.config
  have hexec := exec_accept (c := c) (s := s.sampled) (by simpa using hp) (by simpa using hu)
  refine ⟨_, (h.step_start hp).trans hexec, ?_, by simp [firstIndex_eq], h.of_exec hexec⟩
  cases c with
  | cbuf =>
    have hbuf : s.sampled.buf.CompressedBelow s.buf 0 := by simpa using Memory.CompressedBelow.zero h.canonical
    exact ⟨rfl, rfl, by simpa [firstIndex] using hu, hbuf.canonical, hbuf.written, hbuf.unread⟩
  | xbuf =>
    have hunits : s.sampled.cfg.units - 1 + 1 = s.cfg.units := by simpa using Nat.sub_add_cancel hu
    have hbuf : s.sampled.buf.ExpandedFromUnit s.buf s.sampled.cfg.capacity (s.sampled.cfg.units - 1 + 1) := by
      rw [hunits]
      simpa using Memory.ExpandedFromUnit.all h.canonical s.cfg.capacity_eq
    exact ⟨rfl, rfl, by simpa [firstIndex] using hu, hbuf.canonical, hbuf.written, hbuf.unread⟩

/-- The step that accepts `c` where there is none completes it. -/
theorem State.Ready.start_empty (h : s.Ready cfg (.drive false true (opOf c) :: r)) (hp : s.phase = .idle)
    (hu : cfg.units = 0) : ∃ t, step s = .next t ∧ t.Finished c s.buf ∧ t.Ready cfg r := by
  obtain ⟨t, hexec, hphase, hdone, hlen, -⟩ :=
    exec_accept_empty (c := c) (s := s.sampled) (by simpa using hp) (by simpa [h.config] using hu)
  have hready := h.of_exec hexec
  refine ⟨t, (h.step_start hp).trans hexec, ?_, hready⟩
  have hend : t.endOfRun = true := endOfRun_iff.2 ⟨hphase, hdone⟩
  have hclen : t.cfg.compressedLength = 0 := by rw [Config.compressedLength_eq, hready.config, hu]
  have hcap : t.cfg.capacity = 0 := by rw [Config.capacity_eq, hready.config, hu]
  cases c with
  | cbuf => exact ⟨hend, hlen.trans hclen.symm, fun a ha => absurd ha (by omega)⟩
  | xbuf => exact ⟨hend, hlen.trans hcap.symm, fun a ha => absurd ha (by omega)⟩

theorem State.Running.busy (h : s.Running c source) : s.phase = .busy := by
  cases c with
  | cbuf => exact State.CompressingFrom.busy h
  | xbuf => exact State.ExpandingFrom.busy h

/-- Left alone, a command in progress makes the unit step of its own instruction. -/
theorem State.Running.step_eq (h : s.Running c source) (hb : s.bench = none) (hm : s.move.leavesAlone = true) :
    step s = exec (commandInstr c) s.sampled := by
  rw [step_of_action_run (State.action_busy hb h.busy hm)]
  cases c with
  | cbuf => rw [State.CompressingFrom.command h]
  | xbuf => rw [State.ExpandingFrom.command h]

/-- A unit step before the last one. -/
theorem State.Running.step_next (h : s.Running c source) (hk : s.k = unitIndex c s.cfg.units j)
    (hj : j + 1 < s.cfg.units) (hb : s.bench = none) (hm : s.move.leavesAlone = true) :
    ∃ t, step s = .next t ∧ t.Running c source ∧ t.k = unitIndex c s.cfg.units (j + 1) := by
  cases c with
  | cbuf =>
    obtain ⟨t, ht, -, hnext, -⟩ := cbufIsSafeInPlace source s h hb hm
    obtain ⟨hrun, htk⟩ := hnext (by rw [hk]; exact hj)
    exact ⟨t, ht, hrun, by rw [htk, hk]; rfl⟩
  | xbuf =>
    obtain ⟨t, ht, -, hnext, -⟩ := xbufIsSafeInPlace.1 source s h hb hm
    simp only [unitIndex] at hk ⊢
    obtain ⟨hrun, htk⟩ := hnext (by omega)
    exact ⟨t, ht, hrun, by omega⟩

/-- The last unit step. -/
theorem State.Running.step_last (h : s.Running c source) (hk : s.k = unitIndex c s.cfg.units j)
    (hj : j + 1 = s.cfg.units) (hb : s.bench = none) (hm : s.move.leavesAlone = true) :
    ∃ t, step s = .next t ∧ t.Finished c source := by
  cases c with
  | cbuf =>
    obtain ⟨t, ht, -, -, hlast⟩ := cbufIsSafeInPlace source s h hb hm
    exact ⟨t, ht, hlast (by rw [hk]; exact hj)⟩
  | xbuf =>
    obtain ⟨t, ht, -, -, hlast⟩ := xbufIsSafeInPlace.1 source s h hb hm
    simp only [unitIndex] at hk
    exact ⟨t, ht, hlast (by omega)⟩

/-- A unit step takes one move of the host and keeps the rest of what a run carries. -/
theorem State.Ready.unitStep (h : s.Ready cfg l) (hrun : s.Running c source) (hm : s.move.leavesAlone = true)
    (ht : step s = .next t) : t.Ready cfg l.tail :=
  h.of_exec ((hrun.step_eq h.bench hm).symm.trans ht)

/-! A whole command. -/

/-- A run of one more step at its end. -/
theorem run_snoc (hrun : core.run n s = .next t) (hstep : step t = .next u) : core.run (n + 1) s = .next u := by
  rw [run_add n hrun, run_next hstep]
  rfl

/-- Of moves that leave the transcoder alone, the one taken after `j` others does. -/
theorem leavesAlone_after_drop (hr : ∀ m ∈ r.take n, m.leavesAlone = true) (hj : j < n) :
    ((r.drop j).headD quiet).leavesAlone = true := by
  cases hd : r.drop j with
  | nil => rfl
  | cons m rest =>
    have hget : (r.take n)[j]? = some m := by
      rw [List.getElem?_take_of_lt hj, ← List.head?_drop, hd]
      rfl
    exact hr m (List.mem_of_getElem? hget)

theorem State.Ready.move_leavesAlone (h : s.Ready cfg (r.drop j)) (hr : ∀ m ∈ r.take n, m.leavesAlone = true)
    (hj : j < n) : s.move.leavesAlone = true := by
  rw [State.move, h.moves]
  exact leavesAlone_after_drop hr hj

section
variable (h : s.Ready cfg (.drive false true (opOf c) :: r)) (hp : s.phase = .idle)
  (hr : ∀ m ∈ r.take cfg.units, m.leavesAlone = true)
include h hp hr

/-- After acceptance and `j` unit steps the command is in progress at the unit of its next one (R114). -/
theorem run_command_to_unit (hj : j < cfg.units) : ∃ t : State, core.run (j + 1) s = .next t ∧
    t.Running c s.buf ∧ t.k = unitIndex c cfg.units j ∧ t.Ready cfg (r.drop j) := by
  induction j with
  | zero =>
    obtain ⟨t, ht, hrun, hk, hready⟩ := h.start hp hj
    exact ⟨t, run_snoc (n := 0) rfl ht, hrun, hk, hready⟩
  | succ j ih =>
    obtain ⟨t, hto, hrun, hk, hready⟩ := ih (by omega)
    have hm := hready.move_leavesAlone hr (by omega)
    obtain ⟨u, hu, hrun', hk'⟩ := hrun.step_next (j := j) (by rw [hready.config, hk]) (by rw [hready.config]; exact hj)
      hready.bench hm
    exact ⟨u, run_snoc hto hu, hrun', by rw [hk', hready.config], by simpa using hready.unitStep hrun hm hu⟩

/-- Acceptance and N unit steps complete the command, and leave the host's later moves to come (R118, R119). -/
theorem run_command : ∃ t : State, core.run (cfg.units + 1) s = .next t ∧
    t.Finished c s.buf ∧ t.Ready cfg (r.drop cfg.units) := by
  cases hn : cfg.units with
  | zero =>
    obtain ⟨t, ht, hfin, hready⟩ := h.start_empty hp hn
    exact ⟨t, run_snoc (n := 0) rfl ht, hfin, hready⟩
  | succ j =>
    obtain ⟨t, hto, hrun, hk, hready⟩ := run_command_to_unit h hp hr (j := j) (by omega)
    have hm := hready.move_leavesAlone hr (by omega)
    obtain ⟨u, hu, hfin⟩ := hrun.step_last (j := j) (by rw [hready.config, hk]) (by rw [hready.config, hn])
      hready.bench hm
    exact ⟨u, run_snoc hto hu, hfin, by simpa using hready.unitStep hrun hm hu⟩

end

/-- Settles O48: acceptance, then unit steps in ascending order. -/
theorem cbufCommandResult : Obligations.CbufCommandResult := by
  unfold Obligations.CbufCommandResult
  intro s r hb hp hwf hi hr
  have h : s.Ready s.cfg (.drive false true (opOf .cbuf) :: r) := ⟨hb, rfl, hi, hwf⟩
  refine ⟨fun j hj => ?_, ?_⟩
  · obtain ⟨t, ht, hrun, hk, -⟩ := run_command_to_unit h hp hr hj
    exact ⟨t, ht, hrun.busy, hk⟩
  · obtain ⟨t, ht, ⟨hend, hlen, hresult⟩, hready⟩ := run_command h hp hr
    rw [hready.config, Config.compressedLength_eq] at hlen hresult
    refine ⟨t, ht, hend, hlen, fun k hk j hj => ?_⟩
    rw [hresult _ (by omega), compressedByteOf_unit s.buf k hj]

/-- Settles O49: acceptance, then unit steps in descending order. -/
theorem xbufCommandResult : Obligations.XbufCommandResult := by
  unfold Obligations.XbufCommandResult
  intro s r hb hp hwf hi hr
  have h : s.Ready s.cfg (.drive false true (opOf .xbuf) :: r) := ⟨hb, rfl, hi, hwf⟩
  refine ⟨fun j hj => ?_, ?_⟩
  · obtain ⟨t, ht, hrun, hk, -⟩ := run_command_to_unit h hp hr hj
    exact ⟨t, ht, hrun.busy, hk⟩
  · obtain ⟨t, ht, ⟨hend, hlen, hresult⟩, hready⟩ := run_command h hp hr
    rw [hready.config] at hlen hresult
    refine ⟨t, ht, hend, hlen, fun k hk j hj => ?_⟩
    rw [hresult _ (by rw [Config.capacity_eq]; omega), expandedByteOf_unit s.buf k hj]

/-! Two commands back to back. -/

theorem State.Finished.idle (h : s.Finished c source) : s.phase = .idle := by
  cases c with
  | cbuf => exact (endOfRun_iff.1 (State.CompressedFrom.ended h)).1
  | xbuf => exact (endOfRun_iff.1 (State.ExpandedFrom.ended h)).1

/-- Two commands with nothing but waiting between: the second works on what the first left in BUF. -/
theorem run_two_commands {c₁ c₂ : Command} (hb : s.bench = none) (hp : s.phase = .idle) (hwf : s.buf.wf = true)
    (hi : s.inputs = .drive false true (opOf c₁) :: (quietFor s.cfg.units ++ [.drive false true (opOf c₂)])) :
    ∃ t u : State, core.run (2 * (s.cfg.units + 1)) s = .next u ∧ t.Finished c₁ s.buf ∧ u.Finished c₂ t.buf ∧
      t.cfg = s.cfg ∧ u.cfg = s.cfg := by
  have hlen : (quietFor s.cfg.units).length = s.cfg.units := List.length_replicate
  have hquiet : ∀ m ∈ (quietFor s.cfg.units ++ [HostMove.drive false true (opOf c₂)]).take s.cfg.units,
      m.leavesAlone = true := by
    intro m hm
    rw [List.take_left' hlen] at hm
    rw [List.eq_of_mem_replicate hm]
    rfl
  obtain ⟨t, ht, hfin, hready⟩ := run_command ⟨hb, rfl, hi, hwf⟩ hp hquiet
  rw [List.drop_left' hlen] at hready
  obtain ⟨u, hu, hfin', hready'⟩ := run_command hready hfin.idle (by simp)
  refine ⟨t, u, ?_, hfin, hfin', hready.config, hready'.config⟩
  rw [Nat.two_mul, run_add _ ht, hu]

/-- The round trip of a unit, byte by byte: each sentinel byte becomes `dec2 (enc2 ·)`, payload bytes stay
(spec/41_unit_transcoder.md R95). -/
theorem getElem_unpackUnit_packUnit (v : ExpandedUnit) (hj : j < 12) :
    (unpackUnit (packUnit v))[j] = if j % 3 = 0 then dec2 (enc2 v[j]) else v[j] := by
  obtain ⟨hlane, -, -⟩ := unitRoundTripCanonicalises v
  obtain ⟨i, b, hb, rfl⟩ : ∃ (i : Fin 4) (b : Nat), b < 3 ∧ j = 3 * i.val + b :=
    ⟨⟨j / 3, by omega⟩, j % 3, by omega, by simp only []; omega⟩
  interval_cases b
  · rw [if_pos (by omega)]
    exact congrArg Sample.byte0 (hlane i)
  · rw [if_neg (by omega)]
    exact congrArg Sample.byte1 (hlane i)
  · rw [if_neg (by omega)]
    exact congrArg Sample.byte2 (hlane i)

/-- XBUF of what CBUF made of `source` (R122). -/
theorem expandedByteOf_of_compressed (h : ∀ a, a < 9 * n → m.read a = compressedByteOf source a) {a : Nat}
    (ha : a < 12 * n) : expandedByteOf m a = canonicalByteOf source a := by
  obtain ⟨k, j, hj, rfl⟩ : ∃ k j, j < 12 ∧ a = 12 * k + j := ⟨a / 12, a % 12, by omega, by omega⟩
  rw [expandedByteOf_unit m k hj, unit_at_compressed_offset_of_result h (by omega), getElem_unpackUnit_packUnit _ hj,
    Memory.getElem_unit_at_expanded_offset source k hj, canonicalByteOf, show (12 * k + j) % 3 = j % 3 by omega]

/-- CBUF of what XBUF made of `source` (R123). -/
theorem compressedByteOf_of_expanded (h : ∀ a, a < 12 * n → m.read a = expandedByteOf source a) {a : Nat}
    (ha : a < 9 * n) : compressedByteOf m a = source.read a := by
  obtain ⟨k, j, hj, rfl⟩ : ∃ k j, j < 9 ∧ a = 9 * k + j := ⟨a / 9, a % 9, by omega, by omega⟩
  rw [compressedByteOf_unit m k hj, unit_at_expanded_offset_of_result h (by omega)]
  simp only [packUnit_unpackUnit, Memory.getElem_unit_at_compressed_offset source k hj]

/-- Under the sentinel precondition the round trip changes no byte (R122). -/
theorem State.SentinelsHold.canonicalByteOf_eq (h : s.SentinelsHold) {a : Nat} (ha : a < s.cfg.capacity) :
    canonicalByteOf s.buf a = s.buf.read a := by
  rw [s.cfg.capacity_eq] at ha
  unfold canonicalByteOf
  split
  next hmod =>
    obtain ⟨i, rfl⟩ := Nat.dvd_of_mod_eq_zero hmod
    exact dec2_enc2_of_isSentinel (h i (by omega))
  next => rfl

/-- Settles O50: XBUF reads only bytes CBUF determined. -/
theorem cbufThenXbufRestoresTheBuffer : Obligations.CbufThenXbufRestoresTheBuffer := by
  unfold Obligations.CbufThenXbufRestoresTheBuffer
  intro s hb hp hwf hi
  obtain ⟨t, u, hrun, ⟨_, _, hpacked⟩, ⟨hend, hlen, hresult⟩, htcfg, hucfg⟩ :=
    run_two_commands (c₁ := .cbuf) (c₂ := .xbuf) hb hp hwf hi
  rw [htcfg, Config.compressedLength_eq] at hpacked
  rw [hucfg] at hlen hresult
  have hcanonical : ∀ a, a < s.cfg.capacity → u.buf.read a = canonicalByteOf s.buf a := fun a ha => by
    rw [hresult a ha, expandedByteOf_of_compressed hpacked (s.cfg.capacity_eq ▸ ha)]
  refine ⟨u, hrun, hend, hlen, hcanonical, fun hs a ha => ?_⟩
  rw [hcanonical a ha, hs.canonicalByteOf_eq ha]

/-- Settles O51: the compressed units tile `[0, 9N)`, and `packUnit` undoes `unpackUnit`. -/
theorem xbufThenCbufRestoresTheCompressedBytes : Obligations.XbufThenCbufRestoresTheCompressedBytes := by
  unfold Obligations.XbufThenCbufRestoresTheCompressedBytes
  simp only [readOffsets_eq]
  refine ⟨fun n k hk a ha => lt_of_mem_unitOffsets hk ha, fun n a ha => ?_, fun s hb hp hwf hi => ?_⟩
  · exact ⟨a / 9, by omega, mem_unitOffsets.2 (by simp only [readWidth]; omega)⟩
  · obtain ⟨t, u, hrun, ⟨_, _, hunpacked⟩, ⟨hend, hlen, hresult⟩, htcfg, hucfg⟩ :=
      run_two_commands (c₁ := .xbuf) (c₂ := .cbuf) hb hp hwf hi
    rw [htcfg, Config.capacity_eq] at hunpacked
    rw [hucfg] at hlen hresult
    exact ⟨u, hrun, hend, hlen, fun a ha => (hresult a ha).trans (compressedByteOf_of_expanded hunpacked ha)⟩

end Sys2Proof.Machine
end

section
/-! The static check of a capacity (spec/60_exceptions.md R141). -/

namespace Sys2Proof

theorem Config.ofCapacity_of_dvd {c : Nat} (h : 12 ∣ c) : Config.ofCapacity c = .ok ⟨c, h⟩ :=
  dif_pos h

theorem Config.ofCapacity_of_not_dvd {c : Nat} (h : ¬ 12 ∣ c) : Config.ofCapacity c = .error (.configInvalid c) :=
  dif_neg h

namespace Machine

/-- Settles O17: what the check answers in either case, and an accepted capacity is exactly its units. -/
theorem capacityCheckRefusesNonMultiples : Obligations.CapacityCheckRefusesNonMultiples := by
  unfold Obligations.CapacityCheckRefusesNonMultiples
  intro c
  constructor
  · intro h
    exact ⟨⟨c, h⟩, Config.ofCapacity_of_dvd h, rfl, (Config.capacity_eq ⟨c, h⟩).symm⟩
  · exact Config.ofCapacity_of_not_dvd

end Machine

end Sys2Proof
end

section
/-! The processing order: each command in the other's order destroys input it has still to read
(spec/70_reset_and_hazards.md R166). -/

namespace Sys2Proof.Machine

variable {m : Memory} {a k n : Nat}

/-! XBUF, ascending. -/

/-- The steps on the units from `k` on write above every offset of the units below `k`. -/
theorem Memory.read_foldl_expandAt_cbufOrder (hk : k ≤ n) (ha : a < 12 * k) :
    ((cbufOrder n).foldl Memory.expandAt m).read a = ((cbufOrder k).foldl Memory.expandAt m).read a := by
  induction n, hk using Nat.le_induction with
  | base => rfl
  | succ n hk ih =>
    rw [cbufOrder, List.range_succ, List.foldl_append, List.foldl_cons, List.foldl_nil,
      Memory.read_expandAt_other (.inl (by omega))]
    exact ih

/-- The step on unit 0 has changed byte 10, of compressed unit 1 (`expandAt_zero_changes_unit_one`), and the step on
unit 1 unpacks it to byte 14. -/
theorem expandAt_ascending_corrupts_byte_14 (hn : 2 ≤ n) :
    ((cbufOrder n).foldl Memory.expandAt [(7, 1)]).read 14 ≠ expandedByteOf [(7, 1)] 14 := by
  rw [Memory.read_foldl_expandAt_cbufOrder hn (by decide)]
  decide

/-! CBUF, descending. -/

theorem xbufOrder_succ (n : Nat) : xbufOrder (n + 1) = n :: xbufOrder n := by
  simp [xbufOrder, List.range_succ]

/-- The steps on the units from `k` on, which come first, leave every byte below `9k` as it was. -/
theorem Memory.foldl_compressAt_xbufOrder (hm : m.wf = true) (hk : k ≤ n) :
    ∃ m' : Memory, m'.wf = true ∧ (∀ a, a < 9 * k → m'.read a = m.read a) ∧
      (xbufOrder n).foldl Memory.compressAt m = (xbufOrder k).foldl Memory.compressAt m' := by
  induction n, hk using Nat.le_induction generalizing m with
  | base => exact ⟨m, hm, fun _ _ => rfl, rfl⟩
  | succ n hk ih =>
    obtain ⟨m', hm', hread, hfold⟩ := ih (Memory.wf_compressAt (k := n) hm)
    rw [xbufOrder_succ, List.foldl_cons]
    exact ⟨m', hm', fun a ha => (hread a ha).trans (Memory.read_compressAt_other (.inl (by omega))), hfold⟩

/-- Byte 1 of a packed unit, from payload bytes 1 and 2 of its first sample (spec/41_unit_transcoder.md R91). -/
theorem getElem_packUnit_one (u : ExpandedUnit) : (packUnit u)[1] = ((u[1] &&& 0x03) <<< 6) ||| (u[2] >>> 2) := by
  rw [packUnitByteFormulas u]
  rfl

/-- Byte 7 of a packed unit is payload byte 1 of its last sample (R91). -/
theorem getElem_packUnit_seven (u : ExpandedUnit) : (packUnit u)[7] = u[10] := by
  rw [packUnitByteFormulas u]
  rfl

/-- The step on unit 1 has changed byte 10, of expanded unit 0, and the step on unit 0 copies it to byte 7. -/
theorem Memory.read_compressAt_one_zero (hm : m.wf = true) :
    ((m.compressAt 1).compressAt 0).read 7 = ((m.read 13 &&& 0x03) <<< 6) ||| (m.read 14 >>> 2) :=
  calc ((m.compressAt 1).compressAt 0).read 7
    _ = (packUnit ((m.compressAt 1).unit_at_expanded_offset 0))[7] :=
      Memory.read_compressAt (k := 0) (Memory.wf_compressAt hm) 7 (by decide)
    _ = (m.compressAt 1).read 10 := by
      rw [getElem_packUnit_seven, Memory.getElem_unit_at_expanded_offset _ 0 (by decide)]
    _ = (packUnit (m.unit_at_expanded_offset 1))[1] := Memory.read_compressAt (k := 1) hm 1 (by decide)
    _ = ((m.read 13 &&& 0x03) <<< 6) ||| (m.read 14 >>> 2) := by
      rw [getElem_packUnit_one, Memory.getElem_unit_at_expanded_offset _ 1 (by decide),
        Memory.getElem_unit_at_expanded_offset _ 1 (by decide)]

theorem compressAt_descending_corrupts_byte_7 (hn : 2 ≤ n) :
    ((xbufOrder n).foldl Memory.compressAt [(14, 0xFF)]).read 7 ≠ compressedByteOf [(14, 0xFF)] 7 := by
  obtain ⟨m, hm, hread, hfold⟩ := Memory.foldl_compressAt_xbufOrder (m := [(14, 0xFF)]) (by decide) hn
  have horder : xbufOrder 2 = [1, 0] := rfl
  rw [hfold, horder, List.foldl_cons, List.foldl_cons, List.foldl_nil, Memory.read_compressAt_one_zero hm,
    hread 13 (by decide), hread 14 (by decide)]
  decide

/-- What the step on unit `k` writes first is still to be read, as a byte of unit `floor(3k/4)` (R166). -/
theorem nine_mul_mem_readOffsets (k : Nat) : 9 * k ∈ readOffsets .cbuf (3 * k / 4) := by
  rw [readOffsets_eq, readWidth, mem_unitOffsets]
  omega

/-- Settles O54: one buffer for each command, and the same for every `n`, since the steps on the units above unit 1 do
not reach the byte shown. -/
theorem reversedOrdersCorrupt : Obligations.ReversedOrdersCorrupt := by
  unfold Obligations.ReversedOrdersCorrupt
  intro n hn
  refine ⟨⟨[(7, 1)], by decide, 14, by omega, expandAt_ascending_corrupts_byte_14 hn⟩,
    ⟨[(14, 0xFF)], by decide, 7, by omega, compressAt_descending_corrupts_byte_7 hn⟩,
    fun k hk => ⟨?_, nine_mul_mem_readOffsets k, by omega⟩⟩
  rw [writeOffsets_eq, writeWidth, mem_unitOffsets]
  omega

end Sys2Proof.Machine
end

section
/-! Encodings: the encoder and the decoder undo each other (spec/30_encoding.md R65 to R77). -/

namespace Sys2Proof

open Machine

/-! One field and one sample. -/

@[simp] theorem UnitField.ofBits_bits (f : UnitField) : UnitField.ofBits f.bits = f := by
  rw [UnitField.ofBits, UnitField.bits_code, UnitField.bits_payload]

@[simp] theorem UnitField.bits_ofBits (w : BitVec 18) : (UnitField.ofBits w).bits = w :=
  (extract_join w).trans (extract_all w)

@[simp] theorem Sample.ofBits_bits (s : Sample) : Sample.ofBits s.bits = s := by
  have h0 : s.bits.extractLsb' 16 8 = s.byte0 :=
    (extract_high (start := 16) (s.byte0 ++ s.byte1) s.byte2 (by decide)).trans
      ((extract_high s.byte0 s.byte1 (by decide)).trans (extract_all _))
  have h1 : s.bits.extractLsb' 8 8 = s.byte1 :=
    (extract_high (start := 8) (s.byte0 ++ s.byte1) s.byte2 (by decide)).trans
      ((extract_low s.byte0 s.byte1 (by decide)).trans (extract_all _))
  have h2 : s.bits.extractLsb' 0 8 = s.byte2 :=
    (extract_low (start := 0) (s.byte0 ++ s.byte1) s.byte2 (by decide)).trans (extract_all _)
  rw [Sample.ofBits, h0, h1, h2]

@[simp] theorem Sample.bits_ofBits (w : BitVec 24) : (Sample.ofBits w).bits = w := by
  have h : w.extractLsb' 16 8 ++ w.extractLsb' 8 8 = w.extractLsb' 8 16 := extract_join w
  rw [Sample.bits, Sample.ofBits, h]
  exact (extract_join w).trans (extract_all w)

/-! The four samples of a DATA96 pattern (R68), as `fieldAt` and `append_fieldAt` are the four fields of a DATA72
pattern. -/

/-- Sample `i` of a 96-bit pattern, sample 0 topmost. -/
def sampleBitsAt (w : BitVec 96) (i : Fin 4) : BitVec 24 := w.extractLsb' (72 - 24 * i.val) 24

theorem sampleBitsAt_append (b : Fin 4 → BitVec 24) (i : Fin 4) : sampleBitsAt (b 0 ++ b 1 ++ b 2 ++ b 3) i = b i := by
  apply BitVec.eq_of_getLsbD_eq
  intro n hn
  have hbits : (b 0 ++ b 1 ++ b 2 ++ b 3).getLsbD (72 - 24 * i.val + n) = (b i).getLsbD n := by
    rw [BitVec.getLsbD_append, BitVec.getLsbD_append, BitVec.getLsbD_append]
    fin_cases i <;> grind
  rw [sampleBitsAt, BitVec.getLsbD_extractLsb', decide_eq_true hn, Bool.true_and]
  exact hbits

theorem append_sampleBitsAt (w : BitVec 96) :
    sampleBitsAt w 0 ++ sampleBitsAt w 1 ++ sampleBitsAt w 2 ++ sampleBitsAt w 3 = w := by
  have h01 : sampleBitsAt w 0 ++ sampleBitsAt w 1 = w.extractLsb' 48 48 := extract_join w
  have h02 : w.extractLsb' 48 48 ++ sampleBitsAt w 2 = w.extractLsb' 24 72 := extract_join w
  rw [h01, h02]
  exact (extract_join w).trans (extract_all w)

theorem decodeExpanded_eq (w : BitVec 96) : decodeExpanded w =
    .expandedUnit (.ofBits (sampleBitsAt w 0)) (.ofBits (sampleBitsAt w 1)) (.ofBits (sampleBitsAt w 2))
      (.ofBits (sampleBitsAt w 3)) := rfl

theorem decodeCompressed_eq (w : BitVec 72) : decodeCompressed w =
    .compressedUnit (.ofBits (fieldAt w 0)) (.ofBits (fieldAt w 1)) (.ofBits (fieldAt w 2)) (.ofBits (fieldAt w 3)) :=
  rfl

theorem decodeCompressed_bits (f : Fin 4 → UnitField) :
    decodeCompressed ((f 0).bits ++ (f 1).bits ++ (f 2).bits ++ (f 3).bits) =
      .compressedUnit (f 0) (f 1) (f 2) (f 3) := by
  have h := fieldAt_append fun i => (f i).bits
  rw [decodeCompressed_eq, h, h, h, h]
  simp only [UnitField.ofBits_bits]

theorem decodeExpanded_bits (s : Fin 4 → Sample) :
    decodeExpanded ((s 0).bits ++ (s 1).bits ++ (s 2).bits ++ (s 3).bits) = .expandedUnit (s 0) (s 1) (s 2) (s 3) := by
  have h := sampleBitsAt_append fun i => (s i).bits
  rw [decodeExpanded_eq, h, h, h, h]
  simp only [Sample.ofBits_bits]

/-! DATA8: the four rows of the sentinel set, and the default row (R71, R77). -/

theorem decodeSentinel_of_not_isSentinel {b : Byte} (h : ¬ isSentinel b = true) : decodeSentinel b = .sentOther b := by
  simp only [isSentinel_iff, not_or] at h
  obtain ⟨h00, h7F, h80, hFF⟩ := h
  rw [decodeSentinel, if_neg h00, if_neg h7F, if_neg h80, if_neg hFF]

theorem decodeSentinel_spec (b : Byte) :
    (decodeSentinel b).wellFormed = true ∧ encode (decodeSentinel b) = .data (.data8 b) := by
  by_cases h : isSentinel b = true
  · rcases isSentinel_iff.1 h with rfl | rfl | rfl | rfl <;> exact ⟨rfl, rfl⟩
  · rw [decodeSentinel_of_not_isSentinel h]
    exact ⟨by simpa [Instr.wellFormed] using h, rfl⟩

/-! Every row. -/

theorem decode_encode {i : Instr} (h : i.wellFormed = true) : decode (encode i) = i := by
  cases i with
  | cbuf | xbuf | sent00 | sent7F | sent80 | sentFF => rfl
  | compressedUnit f0 f1 f2 f3 => exact decodeCompressed_bits ![f0, f1, f2, f3]
  | expandedUnit s0 s1 s2 s3 => exact decodeExpanded_bits ![s0, s1, s2, s3]
  | field f => exact congrArg Instr.field (UnitField.ofBits_bits f)
  | sentOther b => exact decodeSentinel_of_not_isSentinel (by simpa [Instr.wellFormed] using h)

theorem wellFormed_decode (e : Encoded) : (decode e).wellFormed = true := by
  cases e with
  | cmd1 op =>
    obtain ⟨c, rfl⟩ := exists_opOf_eq op
    cases c <;> rfl
  | data d =>
    cases d with
    | data72 | data96 | data18 => rfl
    | data8 b => exact (decodeSentinel_spec b).1

theorem encode_decode (e : Encoded) : encode (decode e) = e := by
  cases e with
  | cmd1 op =>
    obtain ⟨c, rfl⟩ := exists_opOf_eq op
    cases c <;> rfl
  | data d =>
    cases d with
    | data72 w =>
      rw [decode, decodeDatum, decodeCompressed_eq]
      simp only [encode, UnitField.bits_ofBits, append_fieldAt]
    | data96 w =>
      rw [decode, decodeDatum, decodeExpanded_eq]
      simp only [encode, Sample.bits_ofBits, append_sampleBitsAt]
    | data18 w => exact congrArg (Encoded.data ∘ Datum.data18) (UnitField.bits_ofBits w)
    | data8 b => exact (decodeSentinel_spec b).2

/-- Settles O2: row by row; the slices of a concatenation are its parts. -/
theorem decodeOfEncodeIsIdentity : Obligations.DecodeOfEncodeIsIdentity := by
  unfold Obligations.DecodeOfEncodeIsIdentity
  exact fun _ h => decode_encode h

/-- Settles O3: format by format; adjacent slices join to the pattern. -/
theorem everyPatternDecodesToItself : Obligations.EveryPatternDecodesToItself := by
  unfold Obligations.EveryPatternDecodesToItself
  exact fun e => ⟨wellFormed_decode e, encode_decode e⟩

/-! Table words. -/

/-- The number of a pattern, at the pattern's width, is a table word of that pattern, but for the bytes 0 and 1, which
are the commands' (log 12). -/
theorem patternOf_bits {e : Encoded} (h0 : e ≠ .data (.data8 0)) (h1 : e ≠ .data (.data8 1)) :
    patternOf e.width e.bits = .ok e := by
  cases e with
  | cmd1 op => simp [patternOf, Encoded.width, Encoded.bits, op.isLt]
  | data d =>
    cases d with
    | data72 w | data96 w | data18 w => simp [patternOf, Encoded.width, Encoded.bits, w.isLt]
    | data8 b =>
      have hb : ¬ b.toNat < 2 := fun hlt => by
        rcases (show b.toNat = 0 ∨ b.toNat = 1 by omega) with h | h
        · exact h0 (congrArg (Encoded.data ∘ Datum.data8) (BitVec.eq_of_toNat_eq h))
        · exact h1 (congrArg (Encoded.data ∘ Datum.data8) (BitVec.eq_of_toNat_eq h))
      simp [patternOf, Encoded.width, Encoded.bits, b.isLt, hb]

theorem decodeTableWord_of_patternOf {nbits w : Nat} {e : Encoded} (h : patternOf nbits w = .ok e) :
    decodeTableWord nbits w = some (decode e) := by
  rw [decodeTableWord, h]

/-- Settles O4: a pattern whose byte is 0 or 1 is one of the two rows named out, since decoding gives the row back. -/
theorem tableWordsDecodeToTheirRow : Obligations.TableWordsDecodeToTheirRow := by
  unfold Obligations.TableWordsDecodeToTheirRow
  intro i hi h00 h01
  have hdecode : decode (encode i) = i := decode_encode hi
  have h0 : encode i ≠ .data (.data8 0) := fun h => h00 (hdecode.symm.trans (congrArg decode h))
  have h1 : encode i ≠ .data (.data8 1) := fun h => h01 (hdecode.symm.trans (congrArg decode h))
  rw [decodeTableWord_of_patternOf (patternOf_bits h0 h1), hdecode]

/-- Settles O1: each pattern is written out, and the decoder evaluates on it. -/
theorem wordsFromTheTablesDecode : Obligations.WordsFromTheTablesDecode := by
  unfold Obligations.WordsFromTheTablesDecode
  decide

end Sys2Proof
end

section
/-! What a step does, action by action (spec/10_state.md R33, R35, spec/42_buffer_codec.md R124,
spec/70_reset_and_hazards.md R160 to R162). -/

namespace Sys2Proof.Machine

variable {s t : State} {i : Instr} {m : Memory} {d : Datum} {a : Nat} {start : Bool} {op : BitVec 1} {r : List HostMove}

/-! Which action a state asks for. -/

theorem State.move_of_inputs {move : HostMove} (h : s.inputs = move :: r) : s.move = move := by
  rw [State.move, h, List.headD_cons]

theorem State.move_of_no_inputs (h : s.inputs = []) : s.move = quiet := by rw [State.move, h, List.headD_nil]

theorem State.action_datum (h : s.bench = some d) : s.action = .run (decodeDatum d) := by simp [State.action, h]

theorem State.action_reset (hb : s.bench = none) (hm : s.move = .drive true start op) : s.action = .reset := by
  simp [State.action, State.portAction, hb, hm]

theorem State.action_wait (hb : s.bench = none) (hp : s.phase = .idle) (hm : s.move = .drive false false op) :
    s.action = .wait := by
  simp [State.action, State.portAction, hb, hp, hm]

theorem State.action_read (hb : s.bench = none) (hm : s.move = .read a) : s.action = .access a s.buf := by
  simp [State.action, hb, hm]

theorem State.action_write {b : Byte} (hb : s.bench = none) (hm : s.move = .write a b) :
    s.action = .access a (s.buf.write a b) := by
  simp [State.action, hb, hm]

/-- An access leaves BUF as it is or writes the addressed byte. -/
theorem State.buf_of_action_access (h : s.action = .access a m) :
    m = s.buf ∨ ∃ b, s.move = .write a b ∧ m = s.buf.write a b := by
  cases hb : s.bench with
  | some d => simp [State.action_datum hb] at h
  | none =>
    rcases State.action_cases hb with ⟨_, _, -, ha⟩ | ⟨_, _, -, -, ha⟩ | ⟨_, -, -, ha⟩ | ⟨_, -, -, ha⟩ | ⟨x, -, ha⟩ |
      ⟨x, b, hm, ha⟩
    case inr.inr.inr.inr.inl => exact .inl (Action.access.inj (h.symm.trans ha)).2
    case inr.inr.inr.inr.inr =>
      obtain ⟨rfl, rfl⟩ := Action.access.inj (h.symm.trans ha)
      exact .inr ⟨b, hm, rfl⟩
    all_goals exact Action.noConfusion (h.symm.trans ha)

/-! What a step answers for each action; for a run it is `step_of_action_run`. -/

theorem step_of_action_reset (h : s.action = .reset) : step s = .next s.sampled.applyReset := by rw [step, h]

theorem step_of_action_wait (h : s.action = .wait) : step s = .next s.sampled := by rw [step, h]

theorem step_of_action_access (h : s.action = .access a m) : step s = s.sampled.hostAccess a m := by rw [step, h]

theorem step_of_access_inside (h : s.action = .access a m) (hp : s.phase = .idle) (ha : a < s.cfg.capacity) :
    step s = .next (s.sampled.setBuf m) := by
  simp [step_of_action_access h, State.hostAccess, hp, ha]

theorem step_of_access_outside (h : s.action = .access a m) (hp : s.phase = .idle) (ha : s.cfg.capacity ≤ a) :
    step s = .fault (.outOfBuffer a) := by
  simp [step_of_action_access h, State.hostAccess, hp, ha]

theorem step_of_access_busy (h : s.action = .access a m) (hp : s.phase = .busy) :
    step s = .refused (.hostAccessWhileBusy a) := by
  simp [step_of_action_access h, State.hostAccess, hp]

/-! Reset. -/

/-- A reset in IDLE: the flags, and free values for OPL, K, EU and CU (R162). -/
theorem State.applyReset_idle (h : s.phase = .idle) :
    s.applyReset = s.markReset.forgetSequencer.forgetStaging.advanceDraws 3 := by
  simp [State.applyReset, h]

/-- A reset in BUSY also frees all of BUF (R161). -/
theorem State.applyReset_busy (h : s.phase = .busy) :
    s.applyReset = ((s.forgetBuf 0 s.cfg.capacity).markReset.forgetSequencer.forgetStaging.advanceDraws 3) := by
  simp [State.applyReset, h]

@[simp] theorem State.applyReset_phase : s.applyReset.phase = .idle := by simp [State.applyReset]
@[simp] theorem State.applyReset_len : s.applyReset.len = 0 := by simp [State.applyReset]
@[simp] theorem State.applyReset_done : s.applyReset.done = false := by simp [State.applyReset]

@[simp] theorem State.applyReset_cfg : s.applyReset.cfg = s.cfg := by
  cases h : s.phase <;> simp [State.applyReset_idle, State.applyReset_busy, h]

@[simp] theorem State.applyReset_inputs : s.applyReset.inputs = s.inputs := by
  cases h : s.phase <;> simp [State.applyReset_idle, State.applyReset_busy, h]

@[simp] theorem State.applyReset_bench : s.applyReset.bench = s.bench := by
  cases h : s.phase <;> simp [State.applyReset_idle, State.applyReset_busy, h]

theorem State.applyReset_buf_idle (h : s.phase = .idle) : s.applyReset.buf = s.buf := by
  simp [State.applyReset_idle h]

theorem State.applyReset_buf_busy (h : s.phase = .busy) : s.applyReset.buf = s.buf.forget s.draws 0 s.cfg.capacity := by
  simp [State.applyReset_busy h]

/-- Settles O39: the values of `State.reset`, and an idle transcoder makes no request. -/
theorem resetStateIsIdle : Obligations.ResetStateIsIdle := by
  unfold Obligations.ResetStateIsIdle
  exact ⟨rfl, rfl, rfl, rfl, rfl, rfl, State.portRequests_idle rfl, rfl⟩

/-- Settles O40: the step is `applyReset`, whatever the phase and the other ports. -/
theorem resetOverridesEveryOtherRule : Obligations.ResetOverridesEveryOtherRule := by
  unfold Obligations.ResetOverridesEveryOtherRule
  intro s start op r hb hi
  refine ⟨_, step_of_action_reset (State.action_reset hb (State.move_of_inputs hi)), ?_⟩
  refine ⟨State.applyReset_phase, State.applyReset_done, State.applyReset_len, by simp [State.busyOut],
    State.applyReset_done, State.applyReset_len, State.portRequests_idle State.applyReset_phase, ?_, ?_, fun hp => ?_⟩
  · simp [State.sampled_inputs hb, hi]
  · simp
  · simpa using State.applyReset_buf_idle (s := s.sampled) (by simpa using hp)

/-- Settles O41: the bytes `[0, C)` take the free values of one draw. -/
theorem resetWhileBusyFreesTheBuffer : Obligations.ResetWhileBusyFreesTheBuffer := by
  unfold Obligations.ResetWhileBusyFreesTheBuffer
  intro s start op r hb hp hwf hi
  refine ⟨_, step_of_action_reset (State.action_reset hb (State.move_of_inputs hi)), State.applyReset_done,
    State.applyReset_len, fun a ha => ?_⟩
  rw [State.applyReset_buf_busy (by simpa using hp)]
  simpa using Memory.read_forget (draw := s.draws) (a := 0) hwf ha

/-! Waiting, running and the host's accesses. -/

/-- Settles O36: both forms of nothing asserted are a move with `rst` and `start` low. -/
theorem idleTranscoderWaits : Obligations.IdleTranscoderWaits := by
  unfold Obligations.IdleTranscoderWaits
  intro s hb hp
  refine ⟨fun hi => ?_, fun op r hi => ?_⟩
  · rw [step_of_action_wait (State.action_wait hb hp (State.move_of_no_inputs hi)), State.sampled_ports hb, hi,
      List.tail_nil, ← hi]
  · rw [step_of_action_wait (State.action_wait hb hp (State.move_of_inputs hi)), State.sampled_ports hb, hi,
      List.tail_cons]

/-- Settles O34: by where the instruction comes from. -/
theorem stepRunsTheDecodedInstruction : Obligations.StepRunsTheDecodedInstruction := by
  unfold Obligations.StepRunsTheDecodedInstruction
  intro s
  refine ⟨fun d hd => ?_, fun op r hb hp hi => ?_, fun start op r hb hp hi => ?_, fun hb hp hi => ?_⟩
  · rw [step_of_action_run (State.action_datum hd), State.sampled_datum hd]
    rfl
  · rw [step_of_action_run (State.action_start hb hp hi), State.sampled_ports hb, hi]
    rfl
  · have hm : s.move.leavesAlone = true := by rw [State.move_of_inputs hi]; rfl
    rw [step_of_action_run (State.action_busy hb hp hm), State.sampled_ports hb, hi]
    rfl
  · have hm : s.move.leavesAlone = true := by rw [State.move_of_no_inputs hi]; rfl
    rw [step_of_action_run (State.action_busy hb hp hm), State.sampled_ports hb, hi, List.tail_nil, ← hi]

/-- Settles O37: by the move, the phase and the offset. -/
theorem hostAccessOnlyWhenIdle : Obligations.HostAccessOnlyWhenIdle := by
  unfold Obligations.HostAccessOnlyWhenIdle
  intro s a r hb
  refine ⟨fun d hi => ?_, fun hi => ?_⟩
  · have hact : s.action = .access a (s.buf.write a d) := State.action_write hb (State.move_of_inputs hi)
    refine ⟨fun hp ha hwf => ⟨_, step_of_access_inside hact hp ha, ?_, fun x => ?_⟩,
      step_of_access_outside hact, step_of_access_busy hact⟩
    · rw [State.sampled_ports hb, hi]
      rfl
    · exact Memory.read_write hwf
  · have hact : s.action = .access a s.buf := State.action_read hb (State.move_of_inputs hi)
    refine ⟨fun hp ha => ?_, step_of_access_outside hact, step_of_access_busy hact⟩
    rw [step_of_access_inside hact hp ha, State.sampled_ports hb, hi]
    rfl

/-! Placed table words. -/

/-- A command placed on the ports of a transcoder made idle. -/
theorem step_present_cmd1 (hb : s.bench = none) :
    step (s.present (.cmd1 op)) = exec (decode (.cmd1 op)) { s with phase := .idle } := by
  have hsampled : (s.present (.cmd1 op)).sampled = { s with phase := .idle } := by
    rw [State.sampled_ports rfl]
    simp [State.present, hb]
  rw [step_of_action_run (State.action_start rfl rfl rfl), hsampled]
  rfl

/-- A datum placed on `bench`. -/
theorem step_present_data (hb : s.bench = none) : step (s.present (.data d)) = exec (decode (.data d)) s := by
  have hsampled : (s.present (.data d)).sampled = s := by
    rw [State.sampled_datum rfl, ← hb]
    rfl
  rw [step_of_action_run (State.action_datum rfl), hsampled]
  rfl

theorem decode_cmd1_is_command (op : BitVec 1) : decode (.cmd1 op) = .cbuf ∨ decode (.cmd1 op) = .xbuf := by
  obtain ⟨c, rfl⟩ := exists_opOf_eq op
  cases c
  exacts [.inl rfl, .inr rfl]

/-- No datum decodes to a command: the formats are apart (spec/30_encoding.md R77). -/
theorem decode_data_is_no_command (d : Datum) : ¬ (decode (.data d) = .cbuf ∨ decode (.data d) = .xbuf) := by
  have hencode := encode_decode (.data d)
  rintro (h | h) <;>
  · rw [h] at hencode
    cases hencode

theorem State.withFetchWord_of_patternOf {nbits w : Nat} {e : Encoded} (h : patternOf nbits w = .ok e) :
    s.withFetchWord nbits w = s.present e := by
  rw [State.withFetchWord, h]

theorem patternOf_of_decodeTableWord {nbits w : Nat} (h : decodeTableWord nbits w = some i) :
    ∃ e, patternOf nbits w = .ok e ∧ decode e = i := by
  unfold decodeTableWord at h
  split at h
  next e he => exact ⟨e, he, Option.some.inj h⟩
  next => cases h

/-- Settles O35: by whether the word's pattern is a command's or a datum's. -/
theorem placedTableWordIsRunNext : Obligations.PlacedTableWordIsRunNext := by
  unfold Obligations.PlacedTableWordIsRunNext
  intro s nbits w i hb h
  obtain ⟨e, he, rfl⟩ := patternOf_of_decodeTableWord h
  rw [State.withFetchWord_of_patternOf he]
  cases e with
  | cmd1 op => rw [step_present_cmd1 hb, if_pos (decode_cmd1_is_command op)]
  | data d => rw [step_present_data hb, if_neg (decode_data_is_no_command d)]

/-! What every step keeps. -/

/-- An instruction is a command, or sets EU and CU, or sets `lane`. -/
theorem command_or_datapath (i : Instr) : (∃ c, i = commandInstr c) ∨
    (∃ u o, ∀ s, exec i s = .next (s.setStaging u o)) ∨ (∃ r, ∀ s, exec i s = .next (s.setLane r)) := by
  by_cases hc : i = .cbuf
  · exact .inl ⟨.cbuf, hc⟩
  by_cases hx : i = .xbuf
  · exact .inl ⟨.xbuf, hx⟩
  rcases exec_datapath_cases hc hx with ⟨-, hstaging⟩ | ⟨-, hlane⟩
  exacts [.inr (.inl hstaging), .inr (.inr hlane)]

theorem step_frame (h : step s = .next t) : t.cfg = s.cfg ∧ t.bench = none := by
  rcases step_cases h with ⟨i, -, hexec⟩ | ⟨-, rfl⟩ | ⟨-, rfl⟩ | ⟨a, m, -, -, -, rfl⟩
  case inl =>
    obtain ⟨hcfg, -, hbench⟩ := exec_frame hexec
    exact ⟨by simpa using hcfg, by simpa using hbench⟩
  all_goals simp

/-- Settles O44: the step takes a datum, and no operation puts one. -/
theorem stepNeverPresentsADatum : Obligations.StepNeverPresentsADatum := by
  unfold Obligations.StepNeverPresentsADatum
  intro s t h
  exact (step_frame h).2

/-- Settles O45: no operation writes the configuration. -/
theorem stepKeepsTheConfiguration : Obligations.StepKeepsTheConfiguration := by
  unfold Obligations.StepKeepsTheConfiguration
  intro s t h
  exact (step_frame h).1

/-! BUF while IDLE. -/

/-- No instruction writes BUF from IDLE where there is a unit: a command is only accepted then. -/
theorem exec_idle_buf (hp : s.phase = .idle) (hu : 0 < s.cfg.units) (h : exec i s = .next t) : t.buf = s.buf := by
  rcases command_or_datapath i with ⟨c, rfl⟩ | ⟨u, o, hexec⟩ | ⟨r, hexec⟩
  · obtain rfl := Host.Outcome.next.inj ((exec_accept hp hu).symm.trans h)
    rfl
  all_goals
    obtain rfl := Host.Outcome.next.inj ((hexec s).symm.trans h)
    rfl

/-- Settles O38: by what the step does; only an access of a host write carries another content of BUF. -/
theorem idleTranscoderLeavesTheBuffer : Obligations.IdleTranscoderLeavesTheBuffer := by
  unfold Obligations.IdleTranscoderLeavesTheBuffer
  intro s t hp hu h hm
  refine ⟨State.portRequests_idle hp, ?_⟩
  rcases step_cases h with ⟨i, -, hexec⟩ | ⟨-, rfl⟩ | ⟨-, rfl⟩ | ⟨a, m, hact, -, -, rfl⟩
  · simpa using exec_idle_buf (by simpa using hp) (by simpa using hu) hexec
  · simpa using State.applyReset_buf_idle (s := s.sampled) (by simpa using hp)
  · exact State.sampled_buf s
  · rcases State.buf_of_action_access hact with rfl | ⟨b, hwrite, -⟩
    · rfl
    · exact absurd hwrite (hm a b)

end Sys2Proof.Machine
end

section
/-! The legal states: what each operation needs to end in one, and that every step does (spec/10_state.md R21 to R28,
spec/42_buffer_codec.md R114, R121). -/

namespace Sys2Proof.Machine

variable {s t : State} {i : Instr} {m : Memory} {c : Command} {a k : Nat}

/-! Each operation. -/

/-- The legal states are told by six fields. -/
theorem State.Legal.congr (h : s.Legal) (hphase : t.phase = s.phase) (hk : t.k = s.k) (hlen : t.len = s.len)
    (hdone : t.done = s.done) (hbuf : t.buf = s.buf) (hcfg : t.cfg = s.cfg) : t.Legal := by
  obtain ⟨hwf, hbelow, hindex, hbusy, hlength, hdlength⟩ := h
  constructor <;> simpa only [hphase, hk, hlen, hdone, hbuf, hcfg]

theorem State.Legal.sampled (h : s.Legal) : s.sampled.Legal :=
  h.congr (by simp) (by simp) (by simp) (by simp) (by simp) (by simp)

theorem State.Legal.setBuf (h : s.Legal) (hwf : m.wf = true) (hbelow : m.below s.cfg.capacity = true) :
    (s.setBuf m).Legal :=
  ⟨hwf, hbelow, h.indexInRange, h.busyNotDone, h.lengthLegal, h.doneLength⟩

theorem State.Legal.setIndex (h : s.Legal) (hk : k < s.cfg.units) : (s.setIndex k).Legal :=
  ⟨h.bufCanonical, h.bufInRange, fun _ => hk, h.busyNotDone, h.lengthLegal, h.doneLength⟩

/-- Acceptance at one of the units. -/
theorem State.Legal.accepted (h : s.Legal) (hk : k < s.cfg.units) :
    State.Legal { s with phase := .busy, opl := c, k := k, done := false } :=
  ⟨h.bufCanonical, h.bufInRange, fun _ => hk, fun _ => rfl, h.lengthLegal, nofun⟩

/-- Both ranges a unit step can write end at `12k + 12` or below it. -/
theorem unit_end_le_capacity {cfg : Config} (hk : k < cfg.units) : 12 * k + 12 ≤ cfg.capacity := by
  rw [Config.capacity_eq]
  omega

theorem State.Legal.compressUnitAtK (h : s.Legal) (hp : s.phase = .busy) : s.compressUnitAtK.Legal := by
  have hend := unit_end_le_capacity (h.indexInRange hp)
  have hbuf : (s.setBuf (s.buf.compressAt s.k)).Legal :=
    h.setBuf (Memory.wf_compressAt h.bufCanonical) (Memory.below_compressAt h.bufInRange (by omega))
  exact hbuf.congr (by simp) (by simp) (by simp) (by simp) (by simp) (by simp)

theorem State.Legal.expandUnitAtK (h : s.Legal) (hp : s.phase = .busy) : s.expandUnitAtK.Legal := by
  have hend := unit_end_le_capacity (h.indexInRange hp)
  have hbuf : (s.setBuf (s.buf.expandAt s.k)).Legal :=
    h.setBuf (Memory.wf_expandAt h.bufCanonical) (Memory.below_expandAt h.bufInRange hend)
  exact hbuf.congr (by simp) (by simp) (by simp) (by simp) (by simp) (by simp)

/-- Completion needs only a good buffer: it sets every other field the legal states speak of. -/
theorem State.completeCbuf_legal (hwf : s.buf.wf = true) (hbelow : s.buf.below s.cfg.capacity = true) :
    s.completeCbuf.Legal where
  bufCanonical := by simpa using Memory.wf_forget hwf
  bufInRange := by
    have hle := s.cfg.compressedLength_le
    simpa using Memory.below_forget hbelow (by omega)
  indexInRange := by simp
  busyNotDone := by simp
  lengthLegal := by simp
  doneLength := by simp

theorem State.completeXbuf_legal (hwf : s.buf.wf = true) (hbelow : s.buf.below s.cfg.capacity = true) :
    s.completeXbuf.Legal where
  bufCanonical := by simpa using hwf
  bufInRange := by simpa using hbelow
  indexInRange := by simp
  busyNotDone := by simp
  lengthLegal := by simp
  doneLength := by simp

theorem State.Legal.applyReset (h : s.Legal) : s.applyReset.Legal where
  bufCanonical := by
    cases hp : s.phase with
    | idle => simpa [State.applyReset_buf_idle hp] using h.bufCanonical
    | busy => simpa [State.applyReset_buf_busy hp] using Memory.wf_forget h.bufCanonical
  bufInRange := by
    cases hp : s.phase with
    | idle => simpa [State.applyReset_buf_idle hp] using h.bufInRange
    | busy => simpa [State.applyReset_buf_busy hp] using Memory.below_forget h.bufInRange (by omega)
  indexInRange := by simp
  busyNotDone := by simp
  lengthLegal := by simp
  doneLength := by simp

/-! Each instruction. -/

theorem execCbuf_keeps_legal (hs : s.Legal) (h : execCbuf s = .next t) : t.Legal := by
  rcases execCbuf_cases h with ⟨-, hu, rfl⟩ | ⟨-, -, rfl⟩ | ⟨hp, -, -, rfl⟩ | ⟨hp, -, hk, rfl⟩ | ⟨-, -, rfl⟩
  · exact hs.accepted hu
  · exact State.completeCbuf_legal hs.bufCanonical hs.bufInRange
  · have hstep := hs.compressUnitAtK hp
    exact State.completeCbuf_legal hstep.bufCanonical hstep.bufInRange
  · have hindex := hs.indexInRange hp
    exact (hs.compressUnitAtK hp).setIndex (by simp only [State.compressUnitAtK_cfg]; omega)
  · exact hs

theorem execXbuf_keeps_legal (hs : s.Legal) (h : execXbuf s = .next t) : t.Legal := by
  rcases execXbuf_cases h with ⟨-, hu, rfl⟩ | ⟨-, -, rfl⟩ | ⟨hp, -, -, rfl⟩ | ⟨hp, -, -, rfl⟩ | ⟨-, -, rfl⟩
  · exact hs.accepted (Nat.sub_lt hu Nat.one_pos)
  · exact State.completeXbuf_legal hs.bufCanonical hs.bufInRange
  · have hstep := hs.expandUnitAtK hp
    exact State.completeXbuf_legal hstep.bufCanonical hstep.bufInRange
  · have hindex := hs.indexInRange hp
    exact (hs.expandUnitAtK hp).setIndex (by simp only [State.expandUnitAtK_cfg]; omega)
  · exact hs

theorem exec_keeps_legal (hs : s.Legal) (h : exec i s = .next t) : t.Legal := by
  rcases command_or_datapath i with ⟨c, rfl⟩ | ⟨u, o, hexec⟩ | ⟨r, hexec⟩
  · cases c with
    | cbuf => exact execCbuf_keeps_legal hs h
    | xbuf => exact execXbuf_keeps_legal hs h
  all_goals
    obtain rfl := Host.Outcome.next.inj ((hexec s).symm.trans h)
    exact hs.congr rfl rfl rfl rfl rfl rfl

/-! Each step. -/

/-- Settles O43: by what the step does. -/
theorem stepKeepsLegalStates : Obligations.StepKeepsLegalStates := by
  unfold Obligations.StepKeepsLegalStates
  intro s t hs h
  rcases step_cases h with ⟨i, -, hexec⟩ | ⟨-, rfl⟩ | ⟨-, rfl⟩ | ⟨a, m, hact, -, ha, rfl⟩
  · exact exec_keeps_legal hs.sampled hexec
  · exact hs.sampled.applyReset
  · exact hs.sampled
  · rcases State.buf_of_action_access hact with rfl | ⟨b, -, rfl⟩
    · exact hs.sampled.setBuf hs.bufCanonical (by simpa using hs.bufInRange)
    · exact hs.sampled.setBuf (Memory.wf_write hs.bufCanonical) (by simpa using Memory.below_write hs.bufInRange ha)

/-- Settles O42: BUF is empty, nothing is in progress, and LEN is 0. -/
theorem resetStateIsLegal : Obligations.ResetStateIsLegal := by
  unfold Obligations.ResetStateIsLegal
  exact ⟨rfl, rfl, nofun, nofun, .inl rfl, nofun⟩

end Sys2Proof.Machine
end

section
/-! The data-layout rows and the units they work on, lane by lane (spec/30_encoding.md R68 to R71,
spec/41_unit_transcoder.md R100). -/

namespace Sys2Proof.Machine

/-! A unit built from its four lanes. -/

theorem fieldAt_unitOfFields (f : Fin 4 → BitVec 18) (i : Fin 4) :
    fieldAt (compressedWord (unitOfFields (f 0) (f 1) (f 2) (f 3))) i = f i := by
  rw [unitOfFields, compressedWord_compressedBytes, fieldAt_append]

theorem sampleAt_unitOfSamples (t : Fin 4 → Sample) (i : Fin 4) :
    sampleAt (unitOfSamples (t 0) (t 1) (t 2) (t 3)) i = t i := by
  fin_cases i <;> rfl

/-- Settles O9: byte `j` of the unit is slice `j` of the number, and field `i` of four laid end to end is field `i`. -/
theorem compressedBytesAndWordAgree : Obligations.CompressedBytesAndWordAgree := by
  unfold Obligations.CompressedBytesAndWordAgree
  refine ⟨compressedWord_compressedBytes, compressedBytes_compressedWord, fun f0 f1 f2 f3 => ?_⟩
  have h := fieldAt_unitOfFields ![f0, f1, f2, f3]
  exact ⟨h 0, h 1, h 2, h 3⟩

/-- Settles O16: lane by lane, and `dec2` lands in the sentinel set. -/
theorem lanesAreIndependent : Obligations.LanesAreIndependent := by
  unfold Obligations.LanesAreIndependent
  exact ⟨fieldAt_packUnit, sampleAt_unpackUnit, isSentinel_sampleAt_unpackUnit⟩

/-! One lane as a field. -/

/-- A packed lane is the code of byte 0 above the payload. -/
theorem ofBits_lanePack (s : Sample) : UnitField.ofBits (lanePack s) = ⟨enc2 s.byte0, s.byte1 ++ s.byte2⟩ := by
  have hpayload : (lanePack s).extractLsb' 0 16 = s.byte1 ++ s.byte2 :=
    calc (lanePack s).extractLsb' 0 16
      _ = (lanePack s).extractLsb' 8 8 ++ (lanePack s).extractLsb' 0 8 :=
        (extract_join (n := 8) (m := 8) (start := 0) _).symm
      _ = s.byte1 ++ s.byte2 := by rw [payloadHigh_lanePack, payloadLow_lanePack]
  rw [UnitField.ofBits, code_lanePack, hpayload]

/-- A field unpacks to the byte of its code and the two bytes of its payload. -/
theorem laneUnpack_bits (f : UnitField) :
    laneUnpack f.bits = ⟨dec2 f.code, f.payload.extractLsb' 8 8, f.payload.extractLsb' 0 8⟩ := by
  have hhigh : f.bits.extractLsb' 8 8 = f.payload.extractLsb' 8 8 := extract_low f.code f.payload (by decide)
  have hlow : f.bits.extractLsb' 0 8 = f.payload.extractLsb' 0 8 := extract_low f.code f.payload (by decide)
  rw [laneUnpack, UnitField.bits_code, hhigh, hlow]

/-! The rows. -/

theorem exec_expandedUnit (s0 s1 s2 s3 : Sample) (s : State) : exec (.expandedUnit s0 s1 s2 s3) s =
    .next (s.setStaging (unitOfSamples s0 s1 s2 s3) (packUnit (unitOfSamples s0 s1 s2 s3))) := rfl

theorem exec_compressedUnit (f0 f1 f2 f3 : UnitField) (s : State) : exec (.compressedUnit f0 f1 f2 f3) s =
    .next (s.setStaging (unpackUnit (unitOfFields f0.bits f1.bits f2.bits f3.bits))
      (unitOfFields f0.bits f1.bits f2.bits f3.bits)) := rfl

/-- Settles O29: lane by lane. -/
theorem expandedUnitIsPacked : Obligations.ExpandedUnitIsPacked := by
  unfold Obligations.ExpandedUnitIsPacked
  intro s0 s1 s2 s3 s
  have hsample : ∀ i, sampleAt (unitOfSamples s0 s1 s2 s3) i = ![s0, s1, s2, s3] i :=
    sampleAt_unitOfSamples ![s0, s1, s2, s3]
  refine ⟨_, exec_expandedUnit s0 s1 s2 s3 s, hsample 0, hsample 1, hsample 2, hsample 3, ?_⟩
  simp only [State.setStaging_cu, fieldAt_packUnit, ofBits_lanePack, hsample]
  exact ⟨rfl, rfl, rfl, rfl⟩

/-- Settles O30: lane by lane. -/
theorem compressedUnitIsUnpacked : Obligations.CompressedUnitIsUnpacked := by
  unfold Obligations.CompressedUnitIsUnpacked
  intro f0 f1 f2 f3 s
  have hfield : ∀ i, fieldAt (compressedWord (unitOfFields f0.bits f1.bits f2.bits f3.bits)) i =
      ![f0.bits, f1.bits, f2.bits, f3.bits] i := fieldAt_unitOfFields ![f0.bits, f1.bits, f2.bits, f3.bits]
  refine ⟨_, exec_compressedUnit f0 f1 f2 f3 s, hfield 0, hfield 1, hfield 2, hfield 3, ?_⟩
  simp only [State.setStaging_eu, sampleAt_unpackUnit, hfield]
  exact ⟨laneUnpack_bits f0, laneUnpack_bits f1, laneUnpack_bits f2, laneUnpack_bits f3⟩

/-- Settles O31: the lane output is the field unpacked. -/
theorem fieldIsUnpacked : Obligations.FieldIsUnpacked := by
  unfold Obligations.FieldIsUnpacked
  intro f s
  rw [← laneUnpack_bits]
  rfl

/-- Settles O32: a byte outside the sentinel set takes the default code of `enc2`. -/
theorem sentinelRowsGiveCodeAndByte : Obligations.SentinelRowsGiveCodeAndByte := by
  unfold Obligations.SentinelRowsGiveCodeAndByte
  intro s
  refine ⟨rfl, rfl, rfl, rfl, fun b hb => ?_⟩
  have hdefault : sentinelResult b = .sentinel 0b11 0xFF := by
    have hcode : enc2 b = 0b11 := by
      simp only [← Bool.not_eq_true, isSentinel_iff, not_or] at hb
      obtain ⟨h00, h7F, h80, -⟩ := hb
      exact enc2_eq_default_iff.2 ⟨h00, h7F, h80⟩
    rw [sentinelResult, hcode]
    rfl
  rw [← hdefault]
  rfl

end Sys2Proof.Machine
end

section
/-! The canonical form of BUF, and the widths of offsets and lengths. -/

namespace Sys2Proof.Machine

variable {m m' rest : Memory} {a a' low : Nat} {d d' : Byte}

/-- A list that begins above `a` does not read as an entry for `a` does. -/
theorem Memory.lowest_le (hd : d ≠ blankByte) (hm' : Memory.wfFrom low m' = true)
    (hread : ∀ x, Memory.read ((a, d) :: rest) x = m'.read x) : low ≤ a := by
  by_contra hlt
  have hblank := hread a
  rw [Memory.read_entry, if_pos rfl, Memory.read_below hm' (by omega)] at hblank
  exact hd hblank

/-- Lists in canonical form that read alike begin with the same entry, and go on with lists that read alike. -/
theorem Memory.eq_of_read_eq (hm : Memory.wfFrom low m = true) (hm' : Memory.wfFrom low m' = true)
    (hread : ∀ x, m.read x = m'.read x) : m = m' := by
  induction m generalizing low m' with
  | nil =>
    cases m' with
    | nil => rfl
    | cons cell rest' =>
      obtain ⟨a', d'⟩ := cell
      obtain ⟨-, hd', -⟩ := Memory.wfFrom_entry.1 hm'
      exact absurd (by simpa using (hread a').symm) hd'
  | cons cell rest ih =>
    obtain ⟨a, d⟩ := cell
    obtain ⟨-, hd, hrest⟩ := Memory.wfFrom_entry.1 hm
    cases m' with
    | nil => exact absurd (by simpa using hread a) hd
    | cons cell' rest' =>
      obtain ⟨a', d'⟩ := cell'
      obtain ⟨-, hd', hrest'⟩ := Memory.wfFrom_entry.1 hm'
      obtain rfl : a = a' := Nat.le_antisymm
        (Memory.lowest_le hd' (Memory.wfFrom_entry.2 ⟨le_refl a, hd, hrest⟩) fun x => (hread x).symm)
        (Memory.lowest_le hd (Memory.wfFrom_entry.2 ⟨le_refl a', hd', hrest'⟩) hread)
      obtain rfl : d = d' := by simpa using hread a
      have htail : ∀ x, Memory.read rest x = Memory.read rest' x := fun x => by
        by_cases hx : x = a
        · rw [Memory.read_below hrest (by omega), Memory.read_below hrest' (by omega)]
        · simpa [hx] using hread x
      rw [ih hrest hrest' htail]

/-- Settles O19: from the lowest entry on. -/
theorem canonicalBuffersReadingAlikeAreEqual : Obligations.CanonicalBuffersReadingAlikeAreEqual := by
  unfold Obligations.CanonicalBuffersReadingAlikeAreEqual
  exact fun m m' hm hm' hread => Memory.eq_of_read_eq hm hm' hread

/-- Settles O18: both widths are ceilings of logarithms. -/
theorem offsetsAndLengthsFitTheirWidths : Obligations.OffsetsAndLengthsFitTheirWidths := by
  unfold Obligations.OffsetsAndLengthsFitTheirWidths
  intro c
  refine ⟨fun a ha => ?_, fun l hl => ?_, fun w hw => Nat.clog_le_of_le_pow hw⟩
  · calc a < c.capacity := ha
      _ ≤ 2 ^ Nat.clog 2 c.capacity := Nat.le_pow_clog Nat.one_lt_two _
      _ ≤ 2 ^ c.addressWidth := Nat.pow_le_pow_right Nat.two_pos (le_max_right _ _)
  · calc l < c.capacity + 1 := Nat.lt_succ_of_le hl
      _ ≤ 2 ^ c.lengthWidth := Nat.le_pow_clog Nat.one_lt_two _

end Sys2Proof.Machine
end

section
/-! What the two commands leave alone, and a unit step as its byte requests (spec/42_buffer_codec.md R112, R113, R120,
R127). -/

namespace Sys2Proof.Machine

variable {s t : State} {m source : Memory} {a k : Nat} {c : Command}

/-- Settles O21: acceptance of `cbuf`, whose first unit is 0. -/
theorem cbufIsAcceptedWhenIdle : Obligations.CbufIsAcceptedWhenIdle := by
  unfold Obligations.CbufIsAcceptedWhenIdle
  exact fun s hp hu => exec_accept (c := .cbuf) hp hu

/-- Settles O22: acceptance of `xbuf`, whose first unit is the last one. -/
theorem xbufIsAcceptedWhenIdle : Obligations.XbufIsAcceptedWhenIdle := by
  unfold Obligations.XbufIsAcceptedWhenIdle
  exact fun s hp hu => exec_accept (c := .xbuf) hp hu

/-! `lane` and the counter of draws through the operations of a command. -/

@[simp] theorem State.compressUnitAtK_lane : s.compressUnitAtK.lane = s.lane := by simp [State.compressUnitAtK]
@[simp] theorem State.compressUnitAtK_draws : s.compressUnitAtK.draws = s.draws := by simp [State.compressUnitAtK]
@[simp] theorem State.expandUnitAtK_lane : s.expandUnitAtK.lane = s.lane := by simp [State.expandUnitAtK]
@[simp] theorem State.expandUnitAtK_draws : s.expandUnitAtK.draws = s.draws := by simp [State.expandUnitAtK]
@[simp] theorem State.completeCbuf_lane : s.completeCbuf.lane = s.lane := by simp [State.completeCbuf]
@[simp] theorem State.completeCbuf_draws : s.completeCbuf.draws = s.draws + 1 := by simp [State.completeCbuf]
@[simp] theorem State.completeXbuf_lane : s.completeXbuf.lane = s.lane := by simp [State.completeXbuf]
@[simp] theorem State.completeXbuf_draws : s.completeXbuf.draws = s.draws + 1 := by simp [State.completeXbuf]

/-! The bytes completion of CBUF frees. -/

theorem State.read_completeCbuf_other (h : ¬ (s.cfg.compressedLength ≤ a ∧ a < s.cfg.capacity)) :
    s.completeCbuf.buf.read a = s.buf.read a := by
  have hle := s.cfg.compressedLength_le
  rw [State.completeCbuf_buf, Memory.read_forget_other (by omega)]

theorem State.read_completeCbuf_trailing (hwf : s.buf.wf = true) (hlo : s.cfg.compressedLength ≤ a)
    (hhi : a < s.cfg.capacity) : s.completeCbuf.buf.read a = Config.freeByte s.draws a := by
  obtain ⟨x, rfl⟩ := Nat.exists_eq_add_of_le hlo
  rw [State.completeCbuf_buf, Memory.read_forget hwf (by omega)]

/-- Settles O26: the last unit step completes, and completion frees `[9N, C)`. -/
theorem trailingBytesAreFreeAfterCbuf : Obligations.TrailingBytesAreFreeAfterCbuf := by
  unfold Obligations.TrailingBytesAreFreeAfterCbuf
  intro s hp hc hk hwf
  refine ⟨_, exec_cbuf_busy hp hc, fun a hlo hhi => ?_⟩
  have hwf' : s.compressUnitAtK.buf.wf = true := by simpa using Memory.wf_compressAt hwf
  rw [State.cbufUnitStep_last hk, State.read_completeCbuf_trailing hwf' (by simpa using hlo) (by simpa using hhi),
    State.compressUnitAtK_draws]

/-! Frames. -/

/-- A CBUF unit step leaves every byte outside its nine. -/
theorem State.read_compressUnitAtK_other (h : ¬ (9 * s.k ≤ a ∧ a < 9 * s.k + 9)) :
    s.compressUnitAtK.buf.read a = s.buf.read a := by
  rw [State.compressUnitAtK_buf, Memory.read_compressAt_other (by omega)]

/-- An XBUF unit step leaves every byte outside its twelve. -/
theorem State.read_expandUnitAtK_other (h : ¬ (12 * s.k ≤ a ∧ a < 12 * s.k + 12)) :
    s.expandUnitAtK.buf.read a = s.buf.read a := by
  rw [State.expandUnitAtK_buf, Memory.read_expandAt_other (by omega)]

/-- The bytes CBUF leaves: all but those of its unit step and those its completion frees. -/
theorem cbuf_buf_frame (h : exec .cbuf s = .next t)
    (hunit : ¬ (s.phase = .busy ∧ s.opl = .cbuf ∧ 9 * s.k ≤ a ∧ a < 9 * s.k + 9))
    (hfree : ¬ (t.phase = .idle ∧ s.cfg.compressedLength ≤ a ∧ a < s.cfg.capacity)) :
    t.buf.read a = s.buf.read a := by
  rcases execCbuf_cases h with ⟨-, -, rfl⟩ | ⟨-, -, rfl⟩ | ⟨hp, hc, -, rfl⟩ | ⟨hp, hc, -, rfl⟩ | ⟨-, -, rfl⟩
  · rfl
  · exact State.read_completeCbuf_other fun h => hfree ⟨State.completeCbuf_phase, h⟩
  · calc s.compressUnitAtK.completeCbuf.buf.read a
      _ = s.compressUnitAtK.buf.read a :=
        State.read_completeCbuf_other fun h => hfree ⟨State.completeCbuf_phase, by simpa using h⟩
      _ = s.buf.read a := State.read_compressUnitAtK_other fun h => hunit ⟨hp, hc, h⟩
  · rw [State.setIndex_buf]
    exact State.read_compressUnitAtK_other fun h => hunit ⟨hp, hc, h⟩
  · rfl

/-- The bytes XBUF leaves: all but those of its unit step. -/
theorem xbuf_buf_frame (h : exec .xbuf s = .next t)
    (hunit : ¬ (s.phase = .busy ∧ s.opl = .xbuf ∧ 12 * s.k ≤ a ∧ a < 12 * s.k + 12)) :
    t.buf.read a = s.buf.read a := by
  rcases execXbuf_cases h with ⟨-, -, rfl⟩ | ⟨-, -, rfl⟩ | ⟨hp, hc, -, rfl⟩ | ⟨hp, hc, -, rfl⟩ | ⟨-, -, rfl⟩
  · rfl
  · rfl
  · rw [State.completeXbuf_buf]
    exact State.read_expandUnitAtK_other fun h => hunit ⟨hp, hc, h⟩
  · rw [State.setIndex_buf]
    exact State.read_expandUnitAtK_other fun h => hunit ⟨hp, hc, h⟩
  · rfl

/-- Settles O27: the registers over everything CBUF can do, and BUF by its own frame. -/
theorem cbufFrame : Obligations.CbufFrame := by
  unfold Obligations.CbufFrame
  intro s t h
  obtain ⟨hcfg, hinputs, hbench⟩ := exec_frame h
  have hbuf := fun a => cbuf_buf_frame (a := a) h
  refine ⟨hcfg, hinputs, hbench, ?_⟩
  rcases execCbuf_cases h with ⟨hp, -, rfl⟩ | ⟨hp, -, rfl⟩ | ⟨hp, hc, -, rfl⟩ | ⟨hp, hc, -, rfl⟩ | ⟨hp, hc, rfl⟩
  case inl | inr.inl => exact ⟨by simp, by simp, by simp, by simp [hp], by simp [hp], hbuf⟩
  case inr.inr.inr.inr => simp
  all_goals exact ⟨by simp, by simp [hp, hc], by simp, by simp [hc], by simp [hc], hbuf⟩

/-- Settles O28: the registers over everything XBUF can do, and BUF by its own frame. -/
theorem xbufFrame : Obligations.XbufFrame := by
  unfold Obligations.XbufFrame
  intro s t h
  obtain ⟨hcfg, hinputs, hbench⟩ := exec_frame h
  have hbuf := fun a => xbuf_buf_frame (a := a) h
  refine ⟨hcfg, hinputs, hbench, ?_⟩
  rcases execXbuf_cases h with ⟨hp, -, rfl⟩ | ⟨hp, -, rfl⟩ | ⟨hp, hc, -, rfl⟩ | ⟨hp, hc, -, rfl⟩ | ⟨hp, hc, rfl⟩
  case inl | inr.inl => exact ⟨by simp, by simp, by simp, by simp [hp], by simp [hp], hbuf⟩
  case inr.inr.inr.inr => simp
  all_goals exact ⟨by simp, by simp [hp, hc], by simp, by simp [hc], by simp [hc], hbuf⟩

/-! A unit step as its byte requests. -/

theorem length_readOffsets (c : Command) (k : Nat) : (readOffsets c k).length = readWidth c := by
  rw [readOffsets_eq, unitOffsets, List.length_map, List.length_range]

theorem foldl_serve_reads (l : List Nat) : (l.map PortRequest.read).foldl Memory.serve m = m := by
  induction l with
  | nil => rfl
  | cons a l ih => exact ih

/-- Writes served one byte at a time, at ascending offsets, are `MemWrite`. -/
theorem foldl_serve_writes (l : List Byte) :
    (List.zipWith PortRequest.write (List.range' a l.length) l).foldl Memory.serve m = m.memWrite a l := by
  induction l generalizing m a with
  | nil => rw [Memory.memWrite_nil]; rfl
  | cons v l ih =>
    rw [Memory.memWrite_cons, ← ih]
    rfl

/-- The bytes a unit step writes begin at its first write offset and go up. -/
theorem writeOffsets_eq_range' (c : Command) (k : Nat) :
    writeOffsets c k = List.range' (writeWidth c * k) (writeWidth c) := by
  rw [writeOffsets_eq, List.range'_eq_map_range]
  rfl

theorem State.foldl_serve_portRequests (hp : s.phase = .busy) : s.portRequests.foldl Memory.serve s.buf =
    s.buf.memWrite (writeWidth s.opl * s.k) (unitOutput s.opl s.buf s.k) := by
  have hwrites := foldl_serve_writes (m := s.buf) (a := writeWidth s.opl * s.k) (unitOutput s.opl s.buf s.k)
  rw [length_unitOutput, ← writeOffsets_eq_range'] at hwrites
  rw [State.portRequests_busy hp, List.foldl_append, foldl_serve_reads, hwrites]

/-- The buffer of a unit step that frees no trailing byte. -/
theorem unitStep_buf (hp : s.phase = .busy) (h : exec (commandInstr s.opl) s = .next t)
    (hkeep : s.opl = .xbuf ∨ t.phase = .busy) :
    t.buf = s.buf.memWrite (writeWidth s.opl * s.k) (unitOutput s.opl s.buf s.k) := by
  cases hc : s.opl with
  | cbuf =>
    rw [hc] at h
    obtain rfl := Host.Outcome.next.inj ((exec_cbuf_busy hp hc).symm.trans h)
    have hk : s.k ≠ s.cfg.units - 1 := fun hk => by simp [hc, State.cbufUnitStep_last hk] at hkeep
    rw [State.cbufUnitStep_next hk]
    rfl
  | xbuf =>
    rw [hc] at h
    obtain rfl := Host.Outcome.next.inj ((exec_xbuf_busy hp hc).symm.trans h)
    exact State.xbufUnitStep_buf

/-- Settles O55: the reads change nothing, and the writes are the step's `MemWrite`. -/
theorem byteRequestsReplayTheUnitStep : Obligations.ByteRequestsReplayTheUnitStep := by
  unfold Obligations.ByteRequestsReplayTheUnitStep
  intro s t hp h
  refine ⟨State.portRequests_offsets hp, ?_, fun hkeep => ?_⟩
  · rw [← List.length_map (f := PortRequest.offset), State.portRequests_offsets hp, List.length_append,
      length_readOffsets, length_writeOffsets, readWidth_add_writeWidth]
  · rw [unitStep_buf hp h hkeep, State.foldl_serve_portRequests hp]

/-! The loops over the whole buffer (R110, R111). -/

/-- After the units below `k`, in ascending order, the units below `k` are compressed. -/
theorem Memory.foldl_compressAt_cbufOrder (hm : m.wf = true) (k : Nat) :
    ((cbufOrder k).foldl Memory.compressAt m).CompressedBelow m k := by
  induction k with
  | zero => exact Memory.CompressedBelow.zero hm
  | succ k ih =>
    rw [cbufOrder, List.range_succ, List.foldl_append]
    exact ih.compressAt

/-- The units below `k`, in descending order, finish what the units from `k` on began. -/
theorem Memory.ExpandedFromUnit.foldl_expandAt_xbufOrder {c : Nat} (h : m.ExpandedFromUnit source c k) :
    ((xbufOrder k).foldl Memory.expandAt m).ExpandedFromUnit source c 0 := by
  induction k generalizing m with
  | zero => exact h
  | succ k ih =>
    rw [xbufOrder_succ, List.foldl_cons]
    exact ih h.expandAt

/-- Settles O53: each loop keeps the invariant of its order, up to the last unit. -/
theorem inPlaceLoopsEqualSeparateBuffers : Obligations.InPlaceLoopsEqualSeparateBuffers := by
  unfold Obligations.InPlaceLoopsEqualSeparateBuffers
  intro c m hm
  have hpack := Memory.foldl_compressAt_cbufOrder hm c.units
  have hunpack := (Memory.ExpandedFromUnit.all hm c.capacity_eq).foldl_expandAt_xbufOrder
  exact ⟨hpack.written, hpack.unread, fun a ha => hunpack.written a (Nat.zero_le a) ha, c.compressedLength_eq,
    c.capacity_eq⟩

end Sys2Proof.Machine
end

section
/-! Host scripts, line by line (spec/30_encoding.md R76, spec/70_reset_and_hazards.md R164, R174). -/

namespace Sys2Proof.Machine

variable {s t : State} {a n : Nat} {c : Command} {source : Memory} {r : List HostMove}

/-- A step that serves a host write in IDLE, inside `[0, C)`. -/
theorem step_write {b : Byte} (hb : s.bench = none) (hp : s.phase = .idle) (ha : a < s.cfg.capacity)
    (hi : s.inputs = .write a b :: r) : step s = .next { s with inputs := r, buf := s.buf.write a b } := by
  have hact : s.action = .access a (s.buf.write a b) := State.action_write hb (State.move_of_inputs hi)
  rw [step_of_access_inside hact hp ha, State.sampled_ports hb, hi]
  rfl

/-- A step that serves a host read in IDLE, inside `[0, C)`. -/
theorem step_read (hb : s.bench = none) (hp : s.phase = .idle) (ha : a < s.cfg.capacity)
    (hi : s.inputs = .read a :: r) : step s = .next { s with inputs := r } := by
  have hact : s.action = .access a s.buf := State.action_read hb (State.move_of_inputs hi)
  rw [step_of_access_inside hact hp ha, State.sampled_ports hb, hi]
  rfl

theorem run_fill {l : List Byte} (hb : s.bench = none) (hp : s.phase = .idle) (ha : a + l.length ≤ s.cfg.capacity)
    (hi : s.inputs = (ScriptLine.fill a l).moves s.cfg ++ r) :
    core.run l.length s = .next { s with inputs := r, buf := s.buf.memWrite a l } := by
  induction l generalizing s a with
  | nil =>
    obtain rfl : s.inputs = r := hi
    rw [Memory.memWrite_nil]
    rfl
  | cons b l ih =>
    rw [List.length_cons] at ha ⊢
    have hi : s.inputs = .write a b :: ((ScriptLine.fill (a + 1) l).moves s.cfg ++ r) := hi
    rw [run_next (step_write hb hp (by omega) hi), Memory.memWrite_cons]
    exact ih hb hp (show a + 1 + l.length ≤ s.cfg.capacity by omega) rfl

theorem run_look (hb : s.bench = none) (hp : s.phase = .idle) (ha : a + n ≤ s.cfg.capacity)
    (hi : s.inputs = (ScriptLine.look a n).moves s.cfg ++ r) : core.run n s = .next { s with inputs := r } := by
  induction n generalizing s a with
  | zero =>
    obtain rfl : s.inputs = r := hi
    rfl
  | succ n ih =>
    have hi : s.inputs = .read a :: ((ScriptLine.look (a + 1) n).moves s.cfg ++ r) := hi
    rw [run_next (step_read hb hp (by omega) hi)]
    exact ih hb hp (show a + 1 + n ≤ s.cfg.capacity by omega) rfl

theorem State.Finished.ended (h : s.Finished c source) : s.endOfRun = true := by
  cases c with
  | cbuf => exact State.CompressedFrom.ended h
  | xbuf => exact State.ExpandedFrom.ended h

theorem State.Finished.len_eq (h : s.Finished c source) : s.len = resultLength s.cfg c := by
  cases c with
  | cbuf => exact State.CompressedFrom.length h
  | xbuf => exact State.ExpandedFrom.length h

theorem length_quietFor (n : Nat) : (quietFor n).length = n := List.length_replicate

/-- The host's wait leaves the transcoder alone, whatever comes after it. -/
theorem quietFor_leavesAlone (n : Nat) (r : List HostMove) :
    ∀ m ∈ (quietFor n ++ r).take n, m.leavesAlone = true := by
  intro m hm
  rw [List.take_left' (length_quietFor n)] at hm
  rw [List.eq_of_mem_replicate hm]
  rfl

/-- Settles O52: a fill and a read by induction on their bytes, and a command as one whole command. -/
theorem hostScriptRunsLineByLine : Obligations.HostScriptRunsLineByLine := by
  unfold Obligations.HostScriptRunsLineByLine
  intro s r hb hp hwf
  refine ⟨fun a l => run_fill hb hp, fun a n => run_look hb hp, fun c hi => ?_⟩
  have h : s.Ready s.cfg (.drive false true (opOf c) :: (quietFor s.cfg.units ++ r)) := ⟨hb, rfl, hi, hwf⟩
  obtain ⟨t, ht, hfin, hready⟩ := run_command h hp (quietFor_leavesAlone s.cfg.units r)
  rw [List.drop_left' (length_quietFor s.cfg.units)] at hready
  exact ⟨t, ht, hfin.ended, by rw [hfin.len_eq, hready.config], hready.config, hready.moves⟩

end Sys2Proof.Machine
end

section
/-! Hidden state: two states that differ only in it take the same step (spec/10_state.md R31, R34). -/

namespace Sys2Proof.Machine

variable {s t s' : State} {c : Command} {k : Nat}

/-! What the two states ask for, and what each operation keeps. -/

theorem State.SameButHidden.action_eq (h : s.SameButHidden t) : s.action = t.action := by
  have hmove : s.move = t.move := by rw [State.move, State.move, h.inputs]
  have hport : ∀ rst start op, s.portAction rst start op = t.portAction rst start op := by
    intro rst start op
    cases hp : s.phase with
    | idle => simp only [State.portAction, ← h.phase, hp]
    | busy => simp only [State.portAction, ← h.phase, hp, h.command hp]
  simp only [State.action, hmove, hport, h.bench, h.buf]

theorem State.SameButHidden.sampled (h : s.SameButHidden t) : s.sampled.SameButHidden t.sampled := by
  obtain ⟨hphase, hlen, hdone, hbuf, hcfg, hinputs, hbench, hlane, hdraws, hcommand, hindex⟩ := h
  constructor
  case inputs =>
    cases hb : s.bench with
    | none => rw [State.sampled_inputs hb, State.sampled_inputs (hbench ▸ hb), hinputs]
    | some d => rw [State.sampled_datum hb, State.sampled_datum (hbench ▸ hb)]; exact hinputs
  case command => simpa using hcommand
  case index => simpa using hindex
  all_goals simp [*]

theorem State.SameButHidden.setBuf (h : s.SameButHidden t) (m : Memory) : (s.setBuf m).SameButHidden (t.setBuf m) :=
  { h with buf := rfl }

theorem State.SameButHidden.setLane (h : s.SameButHidden t) (r : LaneResult) :
    (s.setLane r).SameButHidden (t.setLane r) :=
  { h with lane := rfl }

theorem State.SameButHidden.setIndex (h : s.SameButHidden t) (k : Nat) :
    (s.setIndex k).SameButHidden (t.setIndex k) :=
  { h with index := fun _ => rfl }

/-- EU and CU are hidden, whatever is put there. -/
theorem State.SameButHidden.setStaging (h : s.SameButHidden t) (u u' : ExpandedUnit) (o o' : CompressedUnit) :
    (s.setStaging u o).SameButHidden (t.setStaging u' o') :=
  { h with }

/-- Acceptance sets OPL and K, which the host could not see before it. -/
theorem State.SameButHidden.accepted (h : s.SameButHidden t) (c : Command) (k : Nat) :
    ((s.markAccepted c).setIndex k).SameButHidden ((t.markAccepted c).setIndex k) :=
  ⟨rfl, h.len, rfl, h.buf, h.cfg, h.inputs, h.bench, h.lane, h.draws, fun _ => rfl, fun _ => rfl⟩

theorem State.SameButHidden.compressUnitAtK (h : s.SameButHidden t) (hp : s.phase = .busy) :
    s.compressUnitAtK.SameButHidden t.compressUnitAtK := by
  rw [State.compressUnitAtK, State.compressUnitAtK, ← h.buf, ← h.index hp]
  exact (h.setStaging _ _ _ _).setBuf _

theorem State.SameButHidden.expandUnitAtK (h : s.SameButHidden t) (hp : s.phase = .busy) :
    s.expandUnitAtK.SameButHidden t.expandUnitAtK := by
  rw [State.expandUnitAtK, State.expandUnitAtK, ← h.buf, ← h.index hp]
  exact (h.setStaging _ _ _ _).setBuf _

theorem State.SameButHidden.completeCbuf (h : s.SameButHidden t) : s.completeCbuf.SameButHidden t.completeCbuf := by
  obtain ⟨-, -, -, hbuf, hcfg, hinputs, hbench, hlane, hdraws, -, -⟩ := h
  constructor <;> simp [*]

theorem State.SameButHidden.completeXbuf (h : s.SameButHidden t) : s.completeXbuf.SameButHidden t.completeXbuf := by
  obtain ⟨-, -, -, hbuf, hcfg, hinputs, hbench, hlane, hdraws, -, -⟩ := h
  constructor <;> simp [*]

theorem State.SameButHidden.applyReset (h : s.SameButHidden t) : s.applyReset.SameButHidden t.applyReset := by
  obtain ⟨hphase, -, -, hbuf, hcfg, hinputs, hbench, hlane, hdraws, -, -⟩ := h
  cases hp : s.phase with
  | idle =>
    rw [State.applyReset_idle hp, State.applyReset_idle (hphase ▸ hp)]
    constructor <;> simp [*]
  | busy =>
    rw [State.applyReset_busy hp, State.applyReset_busy (hphase ▸ hp)]
    constructor <;> simp [*]

/-! The commands. -/

theorem State.SameButHidden.acceptCbuf (h : s.SameButHidden t) : s.acceptCbuf.SameButHidden t.acceptCbuf := by
  unfold State.acceptCbuf
  rw [← h.cfg]
  split
  · exact (h.accepted _ _).completeCbuf
  · exact h.accepted _ _

theorem State.SameButHidden.acceptXbuf (h : s.SameButHidden t) : s.acceptXbuf.SameButHidden t.acceptXbuf := by
  unfold State.acceptXbuf
  rw [← h.cfg]
  split
  · exact (h.accepted _ _).completeXbuf
  · exact h.accepted _ _

theorem State.SameButHidden.cbufUnitStep (h : s.SameButHidden t) (hp : s.phase = .busy) :
    s.cbufUnitStep.SameButHidden t.cbufUnitStep := by
  unfold State.cbufUnitStep
  rw [← h.cfg, ← h.index hp]
  split
  · exact (h.compressUnitAtK hp).completeCbuf
  · exact (h.compressUnitAtK hp).setIndex _

theorem State.SameButHidden.xbufUnitStep (h : s.SameButHidden t) (hp : s.phase = .busy) :
    s.xbufUnitStep.SameButHidden t.xbufUnitStep := by
  unfold State.xbufUnitStep
  rw [← h.index hp]
  split
  · exact (h.expandUnitAtK hp).completeXbuf
  · exact (h.expandUnitAtK hp).setIndex _

theorem State.SameButHidden.execCbuf (h : s.SameButHidden t) :
    ∃ s' t', execCbuf s = .next s' ∧ execCbuf t = .next t' ∧ s'.SameButHidden t' := by
  refine ⟨_, _, execCbuf_eq s, execCbuf_eq t, ?_⟩
  rw [← h.phase]
  cases hp : s.phase with
  | idle => exact h.acceptCbuf
  | busy =>
    rw [← h.command hp]
    cases s.opl with
    | cbuf => exact h.cbufUnitStep hp
    | xbuf => exact h

theorem State.SameButHidden.execXbuf (h : s.SameButHidden t) :
    ∃ s' t', execXbuf s = .next s' ∧ execXbuf t = .next t' ∧ s'.SameButHidden t' := by
  refine ⟨_, _, execXbuf_eq s, execXbuf_eq t, ?_⟩
  rw [← h.phase]
  cases hp : s.phase with
  | idle => exact h.acceptXbuf
  | busy =>
    rw [← h.command hp]
    cases s.opl with
    | cbuf => exact h
    | xbuf => exact h.xbufUnitStep hp

theorem State.SameButHidden.exec (h : s.SameButHidden t) (i : Instr) :
    ∃ s' t', exec i s = .next s' ∧ exec i t = .next t' ∧ s'.SameButHidden t' := by
  rcases command_or_datapath i with ⟨c, rfl⟩ | ⟨u, o, hexec⟩ | ⟨r, hexec⟩
  · cases c with
    | cbuf => exact h.execCbuf
    | xbuf => exact h.execXbuf
  · exact ⟨_, _, hexec s, hexec t, h.setStaging u u o o⟩
  · exact ⟨_, _, hexec s, hexec t, h.setLane r⟩

/-- Settles O58: the two states ask for the same action, and each operation keeps them alike. -/
theorem hiddenStateIsUnobservable : Obligations.HiddenStateIsUnobservable := by
  unfold Obligations.HiddenStateIsUnobservable
  intro s t s' h hs
  have hact : t.action = s.action := h.action_eq.symm
  rcases step_cases hs with ⟨i, hrun, hexec⟩ | ⟨hreset, rfl⟩ | ⟨hwait, rfl⟩ | ⟨a, m, haccess, hp, ha, rfl⟩
  · obtain ⟨u, t', hu, ht', hsame⟩ := h.sampled.exec i
    obtain rfl := Host.Outcome.next.inj (hu.symm.trans hexec)
    exact ⟨t', (step_of_action_run (hact.trans hrun)).trans ht', hsame⟩
  · exact ⟨_, step_of_action_reset (hact.trans hreset), h.sampled.applyReset⟩
  · exact ⟨_, step_of_action_wait (hact.trans hwait), h.sampled⟩
  · have hp' : t.phase = .idle := h.phase.symm.trans hp
    exact ⟨_, step_of_access_inside (hact.trans haccess) hp' (h.cfg ▸ ha), h.sampled.setBuf m⟩

end Sys2Proof.Machine
end
